-- ==== Sys2Proof/Word.lean ====
section
/-! DEFINITION. The machine's word and byte (00_scope.md R4, R6). -/

namespace Sys2Proof

/-- A general register, the program counter, an address and a memory cell: 16 bits (R4: XLEN, PCLEN, ALEN,
CELL). `+`, `&&&` and `~~~` on it are the spec's `+16`, `&` and `~` (R6). -/
abbrev Word := BitVec 16

/-- A byte of the two streams and a trap vector: 8 bits (R4, R183, R185). -/
abbrev Byte := BitVec 8

end Sys2Proof
end

