-- ==== Sys2Proof/Syntax.lean ====
section
/-! DEFINITION. The instructions: one constructor per row of spec/opcode_table.json, with the fields of 30_encoding.md
R52 at the widths the encoding gives them. -/

namespace Sys2Proof

/-- The eight general registers (10_state.md R10). Every value of a 3-bit register field names one. -/
inductive Reg where
  | r0 | r1 | r2 | r3 | r4 | r5 | r6 | r7
deriving DecidableEq, Repr

/-- A decoded instruction (R64, R65). Immediates and offsets are the raw fields; the meanings sign-extend them, as the
handler rules do. Bits that R53 marks unused are not kept (R55). The six service vectors of TRAP are constructors of
their own, as the opcode table has them (log 22). -/
inductive Instr where
  /-- BR, R90: condition bits n, z, p and PCoffset9. -/
  | br (n z p : Bool) (off : BitVec 9)
  /-- ADD, register form, R80. -/
  | addR (dr sr1 sr2 : Reg)
  /-- ADD, immediate form, R81. -/
  | addI (dr sr1 : Reg) (imm : BitVec 5)
  /-- LD, R100. -/
  | ld (dr : Reg) (off : BitVec 9)
  /-- ST, R110. -/
  | st (sr : Reg) (off : BitVec 9)
  /-- JSR, R92. -/
  | jsr (off : BitVec 11)
  /-- JSRR, R93. -/
  | jsrr (base : Reg)
  /-- AND, register form, R82. -/
  | andR (dr sr1 sr2 : Reg)
  /-- AND, immediate form, R83. -/
  | andI (dr sr1 : Reg) (imm : BitVec 5)
  /-- LDR, R102. -/
  | ldr (dr base : Reg) (off : BitVec 6)
  /-- STR, R112. -/
  | str (sr base : Reg) (off : BitVec 6)
  /-- RTI, reserved opcode 8, R140. -/
  | rti
  /-- NOT, R84. -/
  | notR (dr sr : Reg)
  /-- LDI, R101. -/
  | ldi (dr : Reg) (off : BitVec 9)
  /-- STI, R111. -/
  | sti (sr : Reg) (off : BitVec 9)
  /-- JMP (and RET, which is JMP R7), R91. -/
  | jmp (base : Reg)
  /-- RES, reserved opcode 13, R141. -/
  | res
  /-- LEA, R103. -/
  | lea (dr : Reg) (off : BitVec 9)
  /-- TRAP with its vector, R120. The decoder gives this constructor the 250 vectors that have no service. -/
  | trap (vect : Byte)
  /-- TRAP 0x20, GETC, R123. -/
  | getc
  /-- TRAP 0x21, OUT, R124. -/
  | out
  /-- TRAP 0x22, PUTS, R125. -/
  | puts
  /-- TRAP 0x23, IN, R126. -/
  | inChar
  /-- TRAP 0x24, PUTSP, R127. -/
  | putsp
  /-- TRAP 0x25, HALT, R128. -/
  | halt
deriving DecidableEq, Repr

end Sys2Proof
end

