-- ==== Sys2Proof/WellFormed.lean ====
section
/-! DEFINITION. Which terms of `Instr` an encoding stands for. Register numbers, immediates and offsets are bounded by
their types; the one check left is that a TRAP with a service vector is written as the service's own constructor. -/

namespace Sys2Proof

/-- The six vectors that name a service routine, 0x20 to 0x25 (44_trap.md R121). -/
def isServiceVector (v : Byte) : Bool :=
  v == 0x20#8 || v == 0x21#8 || v == 0x22#8 || v == 0x23#8 || v == 0x24#8 || v == 0x25#8

/-- The instructions that the decoder can give. A decoder matches the six trap-vector rows before the general TRAP row
(30_encoding.md R65), so `trap v` is well formed exactly when `v` is none of them. -/
def Instr.wf : Instr → Bool
  | .trap v => !isServiceVector v
  | .br _ _ _ _ | .addR _ _ _ | .addI _ _ _ | .ld _ _ | .st _ _ | .jsr _ | .jsrr _ | .andR _ _ _ | .andI _ _ _
  | .ldr _ _ _ | .str _ _ _ | .rti | .notR _ _ | .ldi _ _ | .sti _ _ | .jmp _ | .res | .lea _ _ | .getc | .out | .puts
  | .inChar | .putsp | .halt => true

end Sys2Proof
end

