-- ==== Sys2Proof/Decode.lean ====
section
/-! DEFINITION. The decoder of 30_encoding.md R51 to R65, the encoder written from the same formats, and the opcode
table's match and mask rows. -/

namespace Sys2Proof

/-- The bit-field of `w` of width `n` whose lowest bit is bit `lo`: `w[lo+n-1 : lo]` (00_scope.md R6). -/
def field (w : Word) (lo n : Nat) : BitVec n :=
  w.extractLsb' lo n

/-- The register that a 3-bit field names (R10, R52). -/
def Reg.ofBits (b : BitVec 3) : Reg :=
  match b.getLsbD 2, b.getLsbD 1, b.getLsbD 0 with
  | false, false, false => .r0
  | false, false, true => .r1
  | false, true, false => .r2
  | false, true, true => .r3
  | true, false, false => .r4
  | true, false, true => .r5
  | true, true, false => .r6
  | true, true, true => .r7

/-- A register's number as a 3-bit field (R10, R52). -/
def Reg.bits : Reg → BitVec 3
  | .r0 => 0b000#3
  | .r1 => 0b001#3
  | .r2 => 0b010#3
  | .r3 => 0b011#3
  | .r4 => 0b100#3
  | .r5 => 0b101#3
  | .r6 => 0b110#3
  | .r7 => 0b111#3

/-- The sixteen opcode slots (R51). -/
inductive Opcode where
  | br | add | ld | st | jsr | and | ldr | str | rti | not | ldi | sti | jmp | res | lea | trap
deriving DecidableEq, Repr

/-- The fixed table of R51, from `ir[15:12]` to the opcode. -/
def Opcode.ofBits (b : BitVec 4) : Opcode :=
  match b.getLsbD 3, b.getLsbD 2, b.getLsbD 1, b.getLsbD 0 with
  | false, false, false, false => .br
  | false, false, false, true => .add
  | false, false, true, false => .ld
  | false, false, true, true => .st
  | false, true, false, false => .jsr
  | false, true, false, true => .and
  | false, true, true, false => .ldr
  | false, true, true, true => .str
  | true, false, false, false => .rti
  | true, false, false, true => .not
  | true, false, true, false => .ldi
  | true, false, true, true => .sti
  | true, true, false, false => .jmp
  | true, true, false, true => .res
  | true, true, true, false => .lea
  | true, true, true, true => .trap

/-- The fixed table of R51, from the opcode to its number. -/
def Opcode.bits : Opcode → BitVec 4
  | .br => 0b0000#4
  | .add => 0b0001#4
  | .ld => 0b0010#4
  | .st => 0b0011#4
  | .jsr => 0b0100#4
  | .and => 0b0101#4
  | .ldr => 0b0110#4
  | .str => 0b0111#4
  | .rti => 0b1000#4
  | .not => 0b1001#4
  | .ldi => 0b1010#4
  | .sti => 0b1011#4
  | .jmp => 0b1100#4
  | .res => 0b1101#4
  | .lea => 0b1110#4
  | .trap => 0b1111#4

/-- A TRAP's decoding from `trapvect8`: the six trap-vector rows first, then the general row (R65). -/
def decodeTrap (v : Byte) : Instr :=
  if v = 0x20#8 then .getc
  else if v = 0x21#8 then .out
  else if v = 0x22#8 then .puts
  else if v = 0x23#8 then .inChar
  else if v = 0x24#8 then .putsp
  else if v = 0x25#8 then .halt
  else .trap v

/-- `decode(ir)` of R64. Total: every word is an instruction (R56), so nothing is rejected. Unused bits are not looked
at (R55). -/
def decode (w : Word) : Instr :=
  match Opcode.ofBits (field w 12 4) with
  | .br => .br (w.getLsbD 11) (w.getLsbD 10) (w.getLsbD 9) (field w 0 9)
  | .add =>
    if w.getLsbD 5 then .addI (.ofBits (field w 9 3)) (.ofBits (field w 6 3)) (field w 0 5)
    else .addR (.ofBits (field w 9 3)) (.ofBits (field w 6 3)) (.ofBits (field w 0 3))
  | .ld => .ld (.ofBits (field w 9 3)) (field w 0 9)
  | .st => .st (.ofBits (field w 9 3)) (field w 0 9)
  | .jsr => if w.getLsbD 11 then .jsr (field w 0 11) else .jsrr (.ofBits (field w 6 3))
  | .and =>
    if w.getLsbD 5 then .andI (.ofBits (field w 9 3)) (.ofBits (field w 6 3)) (field w 0 5)
    else .andR (.ofBits (field w 9 3)) (.ofBits (field w 6 3)) (.ofBits (field w 0 3))
  | .ldr => .ldr (.ofBits (field w 9 3)) (.ofBits (field w 6 3)) (field w 0 6)
  | .str => .str (.ofBits (field w 9 3)) (.ofBits (field w 6 3)) (field w 0 6)
  | .rti => .rti
  | .not => .notR (.ofBits (field w 9 3)) (.ofBits (field w 6 3))
  | .ldi => .ldi (.ofBits (field w 9 3)) (field w 0 9)
  | .sti => .sti (.ofBits (field w 9 3)) (field w 0 9)
  | .jmp => .jmp (.ofBits (field w 6 3))
  | .res => .res
  | .lea => .lea (.ofBits (field w 9 3)) (field w 0 9)
  | .trap => decodeTrap (field w 0 8)

/-- A TRAP word with vector `v`, format T with its unused bits 0 (R53, R55). -/
def encodeTrap (v : Byte) : Word :=
  0b1111#4 ++ 0b0000#4 ++ v

/-- The one word of an instruction, laid out as the formats of R53. Unused bits are written 0, except those of NOT,
which are written 1 (R55: the canonical representative; log 23). -/
def encode : Instr → Word
  | .br n z p off => 0b0000#4 ++ BitVec.ofBool n ++ BitVec.ofBool z ++ BitVec.ofBool p ++ off
  | .addR dr sr1 sr2 => 0b0001#4 ++ dr.bits ++ sr1.bits ++ 0b0#1 ++ 0b00#2 ++ sr2.bits
  | .addI dr sr1 imm => 0b0001#4 ++ dr.bits ++ sr1.bits ++ 0b1#1 ++ imm
  | .ld dr off => 0b0010#4 ++ dr.bits ++ off
  | .st sr off => 0b0011#4 ++ sr.bits ++ off
  | .jsr off => 0b0100#4 ++ 0b1#1 ++ off
  | .jsrr base => 0b0100#4 ++ 0b0#1 ++ 0b00#2 ++ base.bits ++ 0b000000#6
  | .andR dr sr1 sr2 => 0b0101#4 ++ dr.bits ++ sr1.bits ++ 0b0#1 ++ 0b00#2 ++ sr2.bits
  | .andI dr sr1 imm => 0b0101#4 ++ dr.bits ++ sr1.bits ++ 0b1#1 ++ imm
  | .ldr dr base off => 0b0110#4 ++ dr.bits ++ base.bits ++ off
  | .str sr base off => 0b0111#4 ++ sr.bits ++ base.bits ++ off
  | .rti => 0b1000#4 ++ 0b000000000000#12
  | .notR dr sr => 0b1001#4 ++ dr.bits ++ sr.bits ++ 0b111111#6
  | .ldi dr off => 0b1010#4 ++ dr.bits ++ off
  | .sti sr off => 0b1011#4 ++ sr.bits ++ off
  | .jmp base => 0b1100#4 ++ 0b000#3 ++ base.bits ++ 0b000000#6
  | .res => 0b1101#4 ++ 0b000000000000#12
  | .lea dr off => 0b1110#4 ++ dr.bits ++ off
  | .trap v => encodeTrap v
  | .getc => encodeTrap 0x20#8
  | .out => encodeTrap 0x21#8
  | .puts => encodeTrap 0x22#8
  | .inChar => encodeTrap 0x23#8
  | .putsp => encodeTrap 0x24#8
  | .halt => encodeTrap 0x25#8

/-- The opcode an instruction belongs to (R51); the six services belong to TRAP. -/
def Instr.opcode : Instr → Opcode
  | .br _ _ _ _ => .br
  | .addR _ _ _ | .addI _ _ _ => .add
  | .ld _ _ => .ld
  | .st _ _ => .st
  | .jsr _ | .jsrr _ => .jsr
  | .andR _ _ _ | .andI _ _ _ => .and
  | .ldr _ _ _ => .ldr
  | .str _ _ _ => .str
  | .rti => .rti
  | .notR _ _ => .not
  | .ldi _ _ => .ldi
  | .sti _ _ => .sti
  | .jmp _ => .jmp
  | .res => .res
  | .lea _ _ => .lea
  | .trap _ | .getc | .out | .puts | .inChar | .putsp | .halt => .trap

/-- The nineteen instruction encodings of R65, one per row of the opcode table with kind "instruction". -/
inductive Form where
  | br | addR | addI | ld | st | jsr | jsrr | andR | andI | ldr | str | rti | notR | ldi | sti | jmp | res | lea | trap
deriving DecidableEq, Repr

/-- The encoding an instruction is written in; the six services are written as TRAP. -/
def Instr.form : Instr → Form
  | .br _ _ _ _ => .br
  | .addR _ _ _ => .addR
  | .addI _ _ _ => .addI
  | .ld _ _ => .ld
  | .st _ _ => .st
  | .jsr _ => .jsr
  | .jsrr _ => .jsrr
  | .andR _ _ _ => .andR
  | .andI _ _ _ => .andI
  | .ldr _ _ _ => .ldr
  | .str _ _ _ => .str
  | .rti => .rti
  | .notR _ _ => .notR
  | .ldi _ _ => .ldi
  | .sti _ _ => .sti
  | .jmp _ => .jmp
  | .res => .res
  | .lea _ _ => .lea
  | .trap _ | .getc | .out | .puts | .inChar | .putsp | .halt => .trap

/-- The bits of a form that R53 marks unused (R55; log 17). -/
def Form.unusedBits : Form → Word
  | .addR | .andR => 0x0018#16
  | .notR => 0x003F#16
  | .jmp => 0x0E3F#16
  | .jsrr => 0x063F#16
  | .trap => 0x0F00#16
  | .rti | .res => 0x0FFF#16
  | .br | .addI | .ld | .st | .jsr | .andI | .ldr | .str | .ldi | .sti | .lea => 0x0000#16

/-- A row of the opcode table: a word `w` selects it when `w & mask = pattern` (R65, "match" and "mask"). -/
structure OpcodeRow where
  form : Form
  pattern : Word
  mask : Word
deriving DecidableEq, Repr

/-- Whether a word selects a row (R65). -/
def OpcodeRow.selects (row : OpcodeRow) (w : Word) : Bool :=
  w &&& row.mask == row.pattern

/-- The nineteen instruction rows of the opcode table, in the table's order (R65). -/
def opcodeRows : List OpcodeRow :=
  [⟨.br, 0x0000#16, 0xF000#16⟩, ⟨.addR, 0x1000#16, 0xF020#16⟩, ⟨.addI, 0x1020#16, 0xF020#16⟩,
   ⟨.ld, 0x2000#16, 0xF000#16⟩, ⟨.st, 0x3000#16, 0xF000#16⟩, ⟨.jsr, 0x4800#16, 0xF800#16⟩,
   ⟨.jsrr, 0x4000#16, 0xF800#16⟩, ⟨.andR, 0x5000#16, 0xF020#16⟩, ⟨.andI, 0x5020#16, 0xF020#16⟩,
   ⟨.ldr, 0x6000#16, 0xF000#16⟩] ++
  [⟨.str, 0x7000#16, 0xF000#16⟩, ⟨.rti, 0x8000#16, 0xF000#16⟩, ⟨.notR, 0x9000#16, 0xF000#16⟩,
   ⟨.ldi, 0xA000#16, 0xF000#16⟩, ⟨.sti, 0xB000#16, 0xF000#16⟩, ⟨.jmp, 0xC000#16, 0xF000#16⟩,
   ⟨.res, 0xD000#16, 0xF000#16⟩, ⟨.lea, 0xE000#16, 0xF000#16⟩, ⟨.trap, 0xF000#16, 0xF000#16⟩]

/-- The decoder on a word of the opcode table given as a number. Every instruction is one 16-bit word (R50); a request
for more bits than that is no instruction. -/
def decodeTableWord (nbits w : Nat) : Option Instr :=
  if nbits ≤ 16 then some (decode (BitVec.ofNat 16 (w % 2 ^ nbits))) else none

end Sys2Proof
end

