-- ==== Sys2Proof/Config.lean ====
section
/-! DEFINITION. The parameters of 00_scope.md R4 and R5 that a model takes: the size of the address space, and the
launch parameters IN_PROMPT and HALT_NOTICE, and the free bytes of an input that does not end. -/

namespace Sys2Proof

/-- NCELL, the number of memory cells (R4, R22). -/
def Config.numCells : Nat := 65536

/-- The address of the last cell, where a fetch makes the increment of `pc` carry out (R155). -/
def Config.topAddress : Word := 0xFFFF#16

/-- The bytes that an input source without end delivers (the oracle INPUT of R5, "any value" in U9 of
93_implementation_defined.md), by their number. A free value: it has no body, and nothing can be proved of it. Log 3. -/
opaque Config.inputByte : Nat → Byte

/-- The launch parameters that the spec leaves open and fixes for a run (R5, R23). A `State` carries them so that every
statement over all states holds for every value of them; no step changes them. Log 6. -/
structure Params where
  /-- IN_PROMPT: the bytes TRAP 0x23 writes before it reads (R126, D10). -/
  inPrompt : List Byte
  /-- HALT_NOTICE: the bytes TRAP 0x25 writes before it stops (R128, D11). -/
  haltNotice : List Byte
deriving DecidableEq, Repr

/-- The values the spec suggests, itself from general knowledge (R5, D10, D11, G2, G3): the ASCII bytes of
"Enter a character: " and of "HALT" with a newline. PRESUMED, log 6; no statement rests on them. -/
def Params.suggested : Params where
  inPrompt := [0x45#8, 0x6E#8, 0x74#8, 0x65#8, 0x72#8, 0x20#8, 0x61#8, 0x20#8, 0x63#8, 0x68#8, 0x61#8, 0x72#8, 0x61#8,
    0x63#8, 0x74#8, 0x65#8, 0x72#8, 0x3A#8, 0x20#8]
  haltNotice := [0x48#8, 0x41#8, 0x4C#8, 0x54#8, 0x0A#8]

end Sys2Proof
end

