-- ==== Sys2Proof/Machine/State.lean ====
section
/-! DEFINITION. The state of the machine (10_state.md), its value after reset (R25), and the reasons a step has no next
state. Plain data throughout. -/

namespace Sys2Proof.Machine

/-- The eight general registers R0 to R7 (R10). Read and written through `RegFile.get` and `RegFile.set` only. -/
structure RegFile where
  r0 : Word
  r1 : Word
  r2 : Word
  r3 : Word
  r4 : Word
  r5 : Word
  r6 : Word
  r7 : Word
deriving DecidableEq, Repr

/-- The condition state, exactly one of Negative, Zero, Positive (R14, R27; log 25). -/
inductive Cond where
  | n | z | p
deriving DecidableEq, Repr

/-- The run state (R19). -/
inductive RunState where
  | running | halted
deriving DecidableEq, Repr

/-- Why a run ended (R171). `None`, code 0, is the absence of a record. -/
inductive StopCause where
  | halt | exhausted | reservedOpcode | unknownTrap | ioFailure
deriving DecidableEq, Repr

/-- The stop record (R170): the cause, the address the stopping instruction was fetched from, and `ir[15:12]` and
`ir[7:0]` of it (log 18). -/
structure StopRecord where
  cause : StopCause
  address : Word
  opcode : BitVec 4
  vector : Byte
deriving DecidableEq, Repr

/-- One accepted request to the output sink (R183): a byte written, or a flush mark. -/
inductive OutEvent where
  | out (b : Byte)
  | flush
deriving DecidableEq, Repr

/-- What the input source will still deliver (the oracle INPUT of R5, "finite or infinite sequence of bytes"): the bytes of
`known`, the next one first, and after them no byte (`beyond = none`) or the free bytes of `Config.inputByte` from the
given number on, without end. Log 3. -/
structure InputSource where
  known : List Byte
  beyond : Option Nat
deriving DecidableEq, Repr

/-- The memory array M (R22): pairs of an address and the cell's 16 bits. The unit is the 16-bit cell, since no byte of a
cell has an address (R30; log 1). An address that is not listed reads as 0x0000, its reset value (R25). The canonical form
is `Memory.wf`. -/
abbrev Memory := List (Nat × Word)

/-- The whole state of the machine. -/
structure State where
  /-- `x[0..7]` (R10). -/
  regs : RegFile
  /-- The program counter: between steps the address of the next instruction; during execute the address of the fetched
  instruction plus 1 (R12). -/
  pc : Word
  /-- The condition state (R14). -/
  cond : Cond
  /-- The run state (R19). -/
  run : RunState
  /-- The stop record; `none` while running (R20). -/
  stop : Option StopRecord
  /-- The instruction word latched by the fetch of the step in progress (R21). It has no meaning between steps: every step
  overwrites it before it is read (log 2). -/
  ir : Word
  /-- The memory array (R22). -/
  mem : Memory
  /-- The output history, oldest event first (R23; log 7). -/
  output : List OutEvent
  /-- The model's own: what the input source will still deliver (the oracle INPUT of R5; log 3). -/
  input : InputSource
  /-- The model's own: how many further requests the output sink accepts before it refuses one; `none` when it never
  refuses (the oracle SINK_OK of R5; log 5). The first refusal ends the run, so this number is all of the oracle. -/
  sink : Option Nat
  /-- The model's own: the launch parameters, fixed for a run (R5, R23; log 6). -/
  params : Params
deriving DecidableEq, Repr

/-- The situations in which a state has no successor. None of them is a stop of the spec: those are next states with
`run = halted`. -/
inductive Fault where
  /-- Raised by `step` when `run = halted`: no step is enabled (R150, R157; log 8). Safe. -/
  | halted
  /-- Raised by GETC and IN when the input source has no byte left to deliver: the step waits for ever (R131, R186; log 4).
  It carries the state in which the machine is stuck in the middle of the step: `R7` written and, for IN, the prompt
  sent. Safe. -/
  | blockedOnInput (mid : State)
  /-- Raised by PUTS and PUTSP when the sink never refuses and no cell of memory ends the string: the routine never ends
  (R131; log 9). Safe. -/
  | endlessString
deriving DecidableEq, Repr

/-- The reasons an instruction has no meaning in the model. -/
inductive Refusal where
  /-- Raised by an arm of `exec` whose instruction has no meaning yet. Safe. No arm does. -/
  | notModelled (mnemonic : String)
deriving DecidableEq, Repr

/-- The machine right after reset (R25, R200): registers and memory zero, `cond = Z`, running, no stop, no output. The
spec gives no reset value for `ir` (log 2), `input` (log 3), `sink` (log 5) and `params` (log 6). -/
def State.reset : State where
  regs := ⟨0#16, 0#16, 0#16, 0#16, 0#16, 0#16, 0#16, 0#16⟩
  pc := 0#16
  cond := .z
  run := .running
  stop := none
  ir := 0#16
  mem := []
  output := []
  input := ⟨[], some 0⟩
  sink := none
  params := Params.suggested

end Sys2Proof.Machine
end

