-- ==== Sys2Proof/Machine/Ops.lean ====
section
/-! DEFINITION. The named operations the meanings share: registers, memory, raising a stop, entering a trap, and the two
streams. -/

namespace Sys2Proof.Machine

/-- What executing an instruction answers. -/
abbrev Result := Host.Outcome State Fault Refusal

/-- `x[i]` in a register file (R8, R10). -/
def RegFile.get (f : RegFile) : Reg → Word
  | .r0 => f.r0
  | .r1 => f.r1
  | .r2 => f.r2
  | .r3 => f.r3
  | .r4 => f.r4
  | .r5 => f.r5
  | .r6 => f.r6
  | .r7 => f.r7

/-- `x[i] <- v` in a register file (R8, R10). No register is hardwired. -/
def RegFile.set (f : RegFile) (r : Reg) (v : Word) : RegFile :=
  match r with
  | .r0 => { f with r0 := v }
  | .r1 => { f with r1 := v }
  | .r2 => { f with r2 := v }
  | .r3 => { f with r3 := v }
  | .r4 => { f with r4 := v }
  | .r5 => { f with r5 := v }
  | .r6 => { f with r6 := v }
  | .r7 => { f with r7 := v }

/-- `x[i]` (R8). -/
def State.reg (s : State) (r : Reg) : Word :=
  s.regs.get r

/-- `x[i] <- v`; does not touch `cond` (R8). -/
def State.setReg (s : State) (r : Reg) (v : Word) : State :=
  { s with regs := s.regs.set r v }

/-- `pc <- target` (R8, R12). -/
def State.setPc (s : State) (target : Word) : State :=
  { s with pc := target }

/-- The content of the cell at address `a`: the listed value, or 0x0000 (R25, R32). -/
def Memory.lookup : Memory → Nat → Word
  | [], _ => 0#16
  | (k, v) :: m, a => if k = a then v else Memory.lookup m a

/-- Put a cell into a memory that does not list its address, before the first higher address. -/
def Memory.insert : Memory → Nat → Word → Memory
  | [], a, v => [(a, v)]
  | (k, w) :: m, a, v => if k < a then (k, w) :: Memory.insert m a v else (a, v) :: (k, w) :: m

/-- `MemRead(addr, 1)` (R32). Total: every address is backed. -/
def Memory.read (m : Memory) (a : Word) : Word :=
  m.lookup a.toNat

/-- `MemWrite(addr, 1, v)` (R32). The old entry goes; a new one is listed unless `v` is what an unlisted address reads
as. -/
def Memory.write (m : Memory) (a : Word) (v : Word) : Memory :=
  let others := m.filter (fun c => c.1 != a.toNat)
  if v = 0#16 then others else Memory.insert others a.toNat v

/-- The canonical form of a memory: addresses strictly rising, all of them in the address space, and no entry equal to
what an unlisted address reads as (log 1). -/
abbrev Memory.wf (m : Memory) : Prop :=
  m.Pairwise (fun c d => c.1 < d.1) ∧ ∀ c ∈ m, c.1 < Config.numCells ∧ c.2 ≠ 0#16

/-- `MemRead(addr, 1)` on a state (R8, R32). -/
def State.load (s : State) (a : Word) : Word :=
  s.mem.read a

/-- `MemWrite(addr, 1, v)` on a state (R8, R32). -/
def State.store (s : State) (a : Word) (v : Word) : State :=
  { s with mem := s.mem.write a v }

/-- `raise Stop(cause, info)` (60_exceptions.md R170): the record is written and `run` becomes halted. The address is the
one the instruction was fetched from, one less than `pc`; opcode and vector are fields of the latched word. Nothing else
changes. Every caller answers with this state at once, so that no later statement of the instruction executes. -/
def State.raiseStop (s : State) (cause : StopCause) : State :=
  { s with
    stop := some ⟨cause, s.pc + 0xFFFF#16, field s.ir 12 4, field s.ir 0 8⟩
    run := .halted }

/-- The numeric codes of R171, with 0 for no record (log 18). They are labels: nothing in the machine reads them. -/
def stopCode : Option StopRecord → BitVec 3
  | none => 0#3
  | some r =>
    match r.cause with
    | .halt => 1#3
    | .exhausted => 2#3
    | .reservedOpcode => 3#3
    | .unknownTrap => 4#3
    | .ioFailure => 5#3

/-- Entry to a TRAP (44_trap.md R120, 60_exceptions.md R176): `x[7] <- pc`, and nothing else is saved or changed. There is
no return operation beside it: a routine returns by ending, nothing is restored, and `pc` still holds the address after
the TRAP (R132, R177). -/
def State.enterTrap (s : State) : State :=
  s.setReg .r7 s.pc

/-- How a request to the output sink, or a row of them, ends: the routine goes on, or a stop has been raised. -/
inductive Flow where
  | goes (s : State)
  | stops (s : State)
deriving DecidableEq, Repr

/-- The rest of a routine after its requests; no later statement executes once a stop was raised (R170). -/
def Flow.andThen : Flow → (State → Result) → Result
  | .goes s, rest => rest s
  | .stops s, _ => .next s

/-- A request to the output sink, `Out(b)` or `Flush()` (R183). Accepted, it is appended to the output history; refused,
it raises `Stop(IO_FAILURE)` (R130). -/
def State.send (s : State) (e : OutEvent) : Flow :=
  match s.sink with
  | none => .goes { s with output := s.output ++ [e] }
  | some 0 => .stops (s.raiseStop .ioFailure)
  | some (k + 1) => .goes { s with output := s.output ++ [e], sink := some k }

/-- Requests one at a time, in order, up to the first refused one (R130, R183). -/
def State.sendAll (s : State) : List OutEvent → Flow
  | [] => .goes s
  | e :: es =>
    match s.send e with
    | .goes s' => s'.sendAll es
    | .stops s' => .stops s'

/-- The next byte of the input source and what it delivers after it; `none` when no byte will come (R185, R186; log 3). -/
def InputSource.deliver : InputSource → Option (Byte × InputSource)
  | ⟨c :: cs, beyond⟩ => some (c, ⟨cs, beyond⟩)
  | ⟨[], some n⟩ => some (Config.inputByte n, ⟨[], some (n + 1)⟩)
  | ⟨[], none⟩ => none

/-- `In()` (R185): takes the next byte of the input source, in order, and goes on with it. When no byte will come the step
has no successor (R131, R186); the fault carries the state the machine is stuck in. -/
def State.takeByte (s : State) (rest : Byte → State → Result) : Result :=
  match s.input.deliver with
  | none => .fault (.blockedOnInput s)
  | some (c, later) => rest c { s with input := later }

end Sys2Proof.Machine
end

