-- ==== Sys2Proof/Machine/Operands.lean ====
section
/-! DEFINITION. Operand forms and effective addresses: sign and zero extension (00_scope.md R7), the two bytes of a cell,
and the addressing modes of 42_load.md R104. -/

namespace Sys2Proof.Machine

/-- `sext_N(f)` (R7). -/
def sext {n : Nat} (f : BitVec n) : Word :=
  f.signExtend 16

/-- `zext_8(f)` (R7). -/
def zext (f : Byte) : Word :=
  f.setWidth 16

/-- Bits 7:0 of a cell, the first character of a PUTSP cell (R34, R127). -/
def lowByte (w : Word) : Byte :=
  field w 0 8

/-- Bits 15:8 of a cell, the second character of a PUTSP cell (R34, R127). -/
def highByte (w : Word) : Byte :=
  field w 8 8

/-- PC-relative address with a 9-bit offset: `pc +16 sext_9(PCoffset9)`, with the post-increment `pc` (R12, R104). -/
def State.pcRelative (s : State) (off : BitVec 9) : Word :=
  s.pc + sext off

/-- PC-relative target with an 11-bit offset: `pc +16 sext_11(PCoffset11)` (R92). -/
def State.pcRelative11 (s : State) (off : BitVec 11) : Word :=
  s.pc + sext off

/-- Indirect address: the pointer read from the PC-relative address (R101, R104, R111). -/
def State.indirect (s : State) (off : BitVec 9) : Word :=
  s.load (s.pcRelative off)

/-- Base+offset address: `x[BaseR] +16 sext_6(offset6)` (R102, R104, R112). -/
def State.baseOffset (s : State) (base : Reg) (off : BitVec 6) : Word :=
  s.reg base + sext off

end Sys2Proof.Machine
end

