-- ==== Sys2Proof/Machine/Flags.lean ====
section
/-! DEFINITION. The condition state: its writer `setcc` (10_state.md R16, R17), its reader BR (R18, R90), and its one-hot
encoding (R15). -/

namespace Sys2Proof.Machine

/-- The condition that describes a 16-bit value (R16). -/
def Cond.ofValue (v : Word) : Cond :=
  if v = 0#16 then .z
  else if v.getLsbD 15 then .n
  else .p

/-- `setcc(v)` (R16). -/
def State.setcc (s : State) (v : Word) : State :=
  { s with cond := Cond.ofValue v }

/-- `x[DR] <- v` and then `setcc(v)`: the end of the seven flag-writing opcodes (R17). -/
def State.writeResult (s : State) (dr : Reg) (v : Word) : State :=
  (s.setReg dr v).setcc v

/-- The one-hot value of the condition state (R15; log 25). No program can observe it. -/
def Cond.bits : Cond → BitVec 3
  | .n => 0b100#3
  | .z => 0b010#3
  | .p => 0b001#3

/-- Whether BR with condition bits `n`, `z`, `p` is taken in the condition state `c` (R90). -/
def branchTaken (n z p : Bool) (c : Cond) : Bool :=
  match c with
  | .n => n
  | .z => z
  | .p => p

end Sys2Proof.Machine
end

