-- ==== Sys2Proof/Machine/Cycle.lean ====
section
/-! DEFINITION. The parts of the instruction cycle around the execute phase (50_instruction_cycle.md): fetch and
increment (R151, R152), and the address-space exhaustion at the top of memory (R155). -/

namespace Sys2Proof.Machine

/-- Fetch and increment (R151, R152): `ir` takes the cell at `pc`, and `pc` its successor, wrapping. -/
def State.fetch (s : State) : State :=
  { s with ir := s.load s.pc, pc := s.pc + 1#16 }

/-- Whether executing `i` in `s` performs `pc <- target`, which marks the step as a control transfer (R8, R94 (5)): a taken
BR, JMP, JSR and JSRR do, and nothing else (R12). -/
def loadsPc (i : Instr) (s : State) : Bool :=
  match i with
  | .br n z p _ => branchTaken n z p s.cond
  | .jmp _ | .jsr _ | .jsrr _ => true
  | .addR _ _ _ | .addI _ _ _ | .andR _ _ _ | .andI _ _ _ | .notR _ _ | .ld _ _ | .ldi _ _ | .ldr _ _ _ | .lea _ _
  | .st _ _ | .sti _ _ | .str _ _ _ | .rti | .res | .trap _ | .getc | .out | .puts | .inChar | .putsp | .halt => false

/-- The end of a step whose fetch address was `a`, after `i` was executed in `fetched` with the answer `r` (R150, R155): when
the increment carried out of 16 bits, the instruction did not load `pc` and no stop was raised, the step raises
`Stop(EXHAUSTED)` (D3; log 11, log 26). -/
def endOfStep (a : Word) (i : Instr) (fetched : State) (r : Result) : Result :=
  match r with
  | .next t =>
    if a = Config.topAddress ∧ loadsPc i fetched = false ∧ t.run = .running then .next (t.raiseStop .exhausted)
    else .next t
  | .fault f => .fault f
  | .refused q => .refused q

end Sys2Proof.Machine
end

