-- ==== Sys2Proof/Machine/Control.lean ====
section
/-! DEFINITION. Control transfer: BR, JMP, JSR, JSRR (41_control.md). `pc` is the post-increment value throughout. -/

namespace Sys2Proof.Machine

/-- BR (R90). -/
def execBr (n z p : Bool) (off : BitVec 9) (s : State) : Result :=
  if branchTaken n z p s.cond then .next (s.setPc (s.pcRelative off)) else .next s

/-- JMP, and RET as its use with R7 (R91). -/
def execJmp (base : Reg) (s : State) : Result :=
  .next (s.setPc (s.reg base))

/-- JSR (R92): the link first; the target is relative to the same post-increment `pc`. -/
def execJsr (off : BitVec 11) (s : State) : Result :=
  let linked := s.setReg .r7 s.pc
  .next (linked.setPc (linked.pcRelative11 off))

/-- JSRR (R93): `BaseR` is read after R7 was written, so JSRR R7 falls through (D5; log 12). -/
def execJsrr (base : Reg) (s : State) : Result :=
  let linked := s.setReg .r7 s.pc
  .next (linked.setPc (linked.reg base))

end Sys2Proof.Machine
end

