-- ==== Sys2Proof/Machine/Load.lean ====
section
/-! DEFINITION. The loads LD, LDI, LDR and the address computation LEA (42_load.md). -/

namespace Sys2Proof.Machine

/-- LD (R100). -/
def execLd (dr : Reg) (off : BitVec 9) (s : State) : Result :=
  .next (s.writeResult dr (s.load (s.pcRelative off)))

/-- LDI (R101): the pointer, then the datum. -/
def execLdi (dr : Reg) (off : BitVec 9) (s : State) : Result :=
  .next (s.writeResult dr (s.load (s.indirect off)))

/-- LDR (R102). -/
def execLdr (dr base : Reg) (off : BitVec 6) (s : State) : Result :=
  .next (s.writeResult dr (s.load (s.baseOffset base off)))

/-- LEA (R103): no memory access. -/
def execLea (dr : Reg) (off : BitVec 9) (s : State) : Result :=
  .next (s.writeResult dr (s.pcRelative off))

end Sys2Proof.Machine
end

