-- ==== Sys2Proof/Machine/Operate.lean ====
section
/-! DEFINITION. The operate instructions ADD, AND, NOT (40_operate.md). Arithmetic is modulo 65536 and silent (R85). -/

namespace Sys2Proof.Machine

/-- ADD, register form (R80). -/
def execAddR (dr sr1 sr2 : Reg) (s : State) : Result :=
  .next (s.writeResult dr (s.reg sr1 + s.reg sr2))

/-- ADD, immediate form (R81). -/
def execAddI (dr sr1 : Reg) (imm : BitVec 5) (s : State) : Result :=
  .next (s.writeResult dr (s.reg sr1 + sext imm))

/-- AND, register form (R82). -/
def execAndR (dr sr1 sr2 : Reg) (s : State) : Result :=
  .next (s.writeResult dr (s.reg sr1 &&& s.reg sr2))

/-- AND, immediate form (R83). -/
def execAndI (dr sr1 : Reg) (imm : BitVec 5) (s : State) : Result :=
  .next (s.writeResult dr (s.reg sr1 &&& sext imm))

/-- NOT (R84). -/
def execNot (dr sr : Reg) (s : State) : Result :=
  .next (s.writeResult dr (~~~(s.reg sr)))

end Sys2Proof.Machine
end

