-- ==== Sys2Proof/Machine/Reserved.lean ====
section
/-! DEFINITION. The reserved opcodes RTI and RES (45_reserved.md): the fatal stop RESERVED_OPCODE, raised at execution and
before any other effect (R142, R171). The record's opcode field tells the two apart. -/

namespace Sys2Proof.Machine

/-- RTI, opcode 8 (R140). -/
def execRti (s : State) : Result :=
  .next (s.raiseStop .reservedOpcode)

/-- RES, opcode 13 (R141). -/
def execRes (s : State) : Result :=
  .next (s.raiseStop .reservedOpcode)

end Sys2Proof.Machine
end

