-- ==== Sys2Proof/Machine/Store.lean ====
section
/-! DEFINITION. The stores ST, STI, STR (43_store.md). -/

namespace Sys2Proof.Machine

/-- ST (R110). -/
def execSt (sr : Reg) (off : BitVec 9) (s : State) : Result :=
  .next (s.store (s.pcRelative off) (s.reg sr))

/-- STI (R111): the pointer is read, then the cell it names is written. -/
def execSti (sr : Reg) (off : BitVec 9) (s : State) : Result :=
  .next (s.store (s.indirect off) (s.reg sr))

/-- STR (R112). -/
def execStr (sr base : Reg) (off : BitVec 6) (s : State) : Result :=
  .next (s.store (s.baseOffset base off) (s.reg sr))

end Sys2Proof.Machine
end

