-- ==== Sys2Proof/Machine/Trap.lean ====
section
/-! DEFINITION. TRAP and the trap dispatcher (44_trap.md): the six service routines, which hardware performs inside the
TRAP's own step, and the stop of every other vector. Each routine runs in the state after `enterTrap`. -/

namespace Sys2Proof.Machine

/-- GETC (R123): the byte, zero-extended, into R0 (D7; log 13). -/
def getcRoutine (s : State) : Result :=
  s.takeByte fun c s' => .next (s'.setReg .r0 (zext c))

/-- OUT (R124): the low byte of R0; no flush (D9; log 14). -/
def outRoutine (s : State) : Result :=
  (s.send (.out (lowByte (s.reg .r0)))).andThen .next

/-- The scan of PUTS (R125) for at most `fuel` cells from address `a`; `none` when the fuel ran out first. The end test is
on the whole cell, the byte sent is its low byte (D8; log 13), and the address wraps (D25; log 15). -/
def putsScan : Nat → Word → State → Option Flow
  | 0, _, _ => none
  | fuel + 1, a, s =>
    if s.load a = 0#16 then some (.goes s)
    else
      match s.send (.out (lowByte (s.load a))) with
      | .goes s' => putsScan fuel (a + 1#16) s'
      | .stops s' => some (.stops s')

/-- The scan of PUTSP (R127): two characters a cell, low byte first; a zero byte in either place ends the string. -/
def putspScan : Nat → Word → State → Option Flow
  | 0, _, _ => none
  | fuel + 1, a, s =>
    if lowByte (s.load a) = 0#8 then some (.goes s)
    else
      match s.send (.out (lowByte (s.load a))) with
      | .stops s' => some (.stops s')
      | .goes s' =>
        if highByte (s.load a) = 0#8 then some (.goes s')
        else
          match s'.send (.out (highByte (s.load a))) with
          | .stops s'' => some (.stops s'')
          | .goes s'' => putspScan fuel (a + 1#16) s''

/-- Enough fuel for a scan that ends: a scan that the sink never refuses has passed every cell once after 65536 cells and
then repeats for ever, since it changes no memory; one that the sink refuses after `k` requests passes at most `k`
cells (log 9). -/
def State.scanFuel (s : State) : Nat :=
  match s.sink with
  | none => Config.numCells
  | some k => Config.numCells + (k + 1)

/-- The end of PUTS and PUTSP: the flush after the string (R125, R127), or no successor when the scan never ends
(R131). -/
def finishString : Option Flow → Result
  | none => .fault .endlessString
  | some flow => flow.andThen fun s => (s.send .flush).andThen .next

/-- PUTS (R125). -/
def putsRoutine (s : State) : Result :=
  finishString (putsScan s.scanFuel (s.reg .r0) s)

/-- IN (R126): the prompt, the byte, its echo, and only then R0 (D26; log 16); no flush (D9; log 14). -/
def inRoutine (s : State) : Result :=
  (s.sendAll (s.params.inPrompt.map .out)).andThen fun prompted =>
    prompted.takeByte fun c taken =>
      (taken.send (.out c)).andThen fun echoed => .next (echoed.setReg .r0 (zext c))

/-- PUTSP (R127). -/
def putspRoutine (s : State) : Result :=
  finishString (putspScan s.scanFuel (s.reg .r0) s)

/-- HALT (R128): the notice, the flush, and the stop HALT. A refused request raises IO_FAILURE instead (R174). -/
def haltRoutine (s : State) : Result :=
  (s.sendAll (s.params.haltNotice.map .out ++ [.flush])).andThen fun s' => .next (s'.raiseStop .halt)

/-- Every other vector (R129): the fatal stop UNKNOWN_TRAP; the vector is the record's, from the latched word. -/
def unknownTrap (s : State) : Result :=
  .next (s.raiseStop .unknownTrap)

/-- The dispatcher (R121): exactly one routine, by equality on the 8-bit vector. -/
def trapDispatch (vect : Byte) (s : State) : Result :=
  if vect = 0x20#8 then getcRoutine s
  else if vect = 0x21#8 then outRoutine s
  else if vect = 0x22#8 then putsRoutine s
  else if vect = 0x23#8 then inRoutine s
  else if vect = 0x24#8 then putspRoutine s
  else if vect = 0x25#8 then haltRoutine s
  else unknownTrap s

/-- TRAP (R120): R7 is written before the vector is examined. -/
def execTrap (vect : Byte) (s : State) : Result :=
  trapDispatch vect s.enterTrap

/-- TRAP 0x20, GETC (R120, R123). -/
def execGetc (s : State) : Result :=
  getcRoutine s.enterTrap

/-- TRAP 0x21, OUT (R120, R124). -/
def execOut (s : State) : Result :=
  outRoutine s.enterTrap

/-- TRAP 0x22, PUTS (R120, R125). -/
def execPuts (s : State) : Result :=
  putsRoutine s.enterTrap

/-- TRAP 0x23, IN (R120, R126). -/
def execIn (s : State) : Result :=
  inRoutine s.enterTrap

/-- TRAP 0x24, PUTSP (R120, R127). -/
def execPutsp (s : State) : Result :=
  putspRoutine s.enterTrap

/-- TRAP 0x25, HALT (R120, R128). -/
def execHalt (s : State) : Result :=
  haltRoutine s.enterTrap

end Sys2Proof.Machine
end

