-- ==== Sys2Proof/Machine/Loader.lean ====
section
/-! DEFINITION. The loader's contract (70_reset_and_hazards.md R203) and the program image it consumes (R205). The loader is
an agent outside the core that acts once, between reset and the first step (R204). -/

namespace Sys2Proof.Machine

/-- Write the words of an image into consecutive cells from `a` upward (R203). -/
def Memory.fill : Memory → Word → List Word → Memory
  | m, _, [] => m
  | m, a, w :: ws => Memory.fill (m.write a w) (a + 1#16) ws

/-- `load(ORIGIN, IMAGE)` (R203): the image into memory and ORIGIN into `pc`; nothing else is written. An image that runs
past the top of memory is refused (D14; log 20). -/
def State.loadImage (s : State) (origin : Word) (image : List Word) : Option State :=
  if origin.toNat + image.length ≤ Config.numCells then some { s with mem := s.mem.fill origin image, pc := origin }
  else none

/-- Bytes taken in pairs as 16-bit words, the high byte first (R34, R205); none for an odd number of bytes. -/
def wordsOfBytes : List Byte → Option (List Word)
  | [] => some []
  | [_] => none
  | hi :: lo :: rest => (wordsOfBytes rest).map ((hi ++ lo) :: ·)

/-- The image file as the loader reads it (R205): its first word is ORIGIN, the rest is IMAGE. An empty file or an odd
number of bytes is refused (D14; log 20). -/
def parseImage (bytes : List Byte) : Option (Word × List Word) :=
  match wordsOfBytes bytes with
  | some (origin :: image) => some (origin, image)
  | some [] | none => none

/-- How a program comes to run (R204): reset, then load. -/
def launch (origin : Word) (image : List Word) : Option State :=
  State.reset.loadImage origin image

end Sys2Proof.Machine
end

