-- ==== Sys2Proof/Machine/Step.lean ====
section
/-! DEFINITION. The step function (50_instruction_cycle.md R150) and where the host puts a word for it to fetch. -/

namespace Sys2Proof.Machine

/-- One step: fetch, increment, decode, execute, and the test for address-space exhaustion (R150). No step is enabled when
`run = halted` (R157). -/
def step (s : State) : Host.Outcome State Fault Refusal :=
  match s.run with
  | .halted => .fault .halted
  | .running => endOfStep s.pc (decode s.fetch.ir) s.fetch (exec (decode s.fetch.ir) s.fetch)

/-- The state with the instruction word `w` in the cell that `step` fetches next, and a step enabled (log 20). -/
def State.withFetchWord (s : State) (nbits w : Nat) : State :=
  { s with
    mem := s.mem.write s.pc (BitVec.ofNat 16 (w % 2 ^ nbits))
    run := .running
    stop := none }

end Sys2Proof.Machine
end

