-- ==== Sys2Proof/Safety.lean ====
section
/-! DEFINITION. The terms claims use: how a run ends (50_instruction_cycle.md R160), the invariant of the states a run can
be in, and the frames of the instructions. -/

namespace Sys2Proof.Machine

/-- A state is final when `run = halted` (R160). -/
def State.final (s : State) : Prop :=
  s.run = .halted

/-- The causes of a normal end; the others are fatal (R160, R171). -/
def StopCause.normal : StopCause → Bool
  | .halt | .exhausted => true
  | .reservedOpcode | .unknownTrap | .ioFailure => false

/-- A successful end (R160): stopped by HALT or by running off the top of memory. -/
def State.endedNormally (s : State) : Prop :=
  s.final ∧ ∃ r, s.stop = some r ∧ r.cause.normal = true

/-- An error end (R160): a reserved opcode, an unknown trap vector, or a refused output. -/
def State.endedInError (s : State) : Prop :=
  s.final ∧ ∃ r, s.stop = some r ∧ r.cause.normal = false

/-- What a record's cause says of the instruction that stopped (R171, "raised by" and "when"). -/
def StopRecord.causeFits (r : StopRecord) : Prop :=
  match r.cause with
  | .halt => r.opcode = 15#4 ∧ r.vector = 0x25#8
  | .exhausted => r.address = 0xFFFF#16
  | .reservedOpcode => r.opcode = 8#4 ∨ r.opcode = 13#4
  | .unknownTrap => r.opcode = 15#4 ∧ isServiceVector r.vector = false
  | .ioFailure =>
    r.opcode = 15#4 ∧
      (r.vector = 0x21#8 ∨ r.vector = 0x22#8 ∨ r.vector = 0x23#8 ∨ r.vector = 0x24#8 ∨ r.vector = 0x25#8)

/-- A stop record that describes the state it stands in (R170, R175): its address is one less than `pc`, its opcode and
vector are those of the last word fetched, and its cause fits them. -/
def StopRecord.describes (r : StopRecord) (s : State) : Prop :=
  s.pc = r.address + 1#16 ∧ r.opcode = field s.ir 12 4 ∧ r.vector = field s.ir 0 8 ∧ r.causeFits

/-- The invariant of the machine: memory is in canonical form (log 1), there is a stop record exactly when the run has
ended (R20), and the record describes the instruction that ended it (R170, R171, R175). -/
def State.Inv (s : State) : Prop :=
  s.mem.wf ∧ (s.run = .running ↔ s.stop = none) ∧ ∀ r, s.stop = some r → r.describes s

/-- The condition that R16 gives a 16-bit value, by its size as a number. -/
def conditionOf (v : Word) : Cond :=
  if v.toNat = 0 then .z else if 32768 ≤ v.toNat then .n else .p

/-- Every register outside `rs` holds what it held. -/
def SameRegsExcept (rs : List Reg) (s t : State) : Prop :=
  ∀ r, r ∉ rs → t.reg r = s.reg r

/-- Every cell of memory reads as before. -/
def SameMemory (s t : State) : Prop :=
  ∀ a, t.load a = s.load a

/-- The run goes on as before: no stop was raised, and the word in progress is the same. -/
def SameRun (s t : State) : Prop :=
  t.run = s.run ∧ t.stop = s.stop ∧ t.ir = s.ir

/-- Nothing was sent, refused or taken on the streams, and the launch parameters are the same. -/
def SameStreams (s t : State) : Prop :=
  t.output = s.output ∧ t.input = s.input ∧ t.sink = s.sink ∧ t.params = s.params

/-- `dr` received `v`, the condition state describes it, and nothing else changed: the effect of the seven flag-writing
opcodes (R11, R16, R17). -/
def WritesResult (dr : Reg) (v : Word) (s t : State) : Prop :=
  t.reg dr = v ∧ t.cond = conditionOf v ∧ SameRegsExcept [dr] s t ∧ t.pc = s.pc ∧ SameMemory s t ∧ SameRun s t ∧
    SameStreams s t

/-- The cell `a` received `v`, every other cell reads as before, and nothing else changed: the effect of a store (R113). -/
def WritesCell (a : Word) (v : Word) (s t : State) : Prop :=
  t.load a = v ∧ (∀ b, b ≠ a → t.load b = s.load b) ∧ SameRegsExcept [] s t ∧ t.cond = s.cond ∧ t.pc = s.pc ∧
    SameRun s t ∧ SameStreams s t

/-- `pc` received `target` and the registers in `rs` may have changed; nothing else did: the effect of a control
transfer. -/
def Transfers (rs : List Reg) (target : Word) (s t : State) : Prop :=
  t.pc = target ∧ SameRegsExcept rs s t ∧ t.cond = s.cond ∧ SameMemory s t ∧ SameRun s t ∧ SameStreams s t

/-- The instructions whose execution in `s` is a control transfer: `pc <- target` is a statement of theirs that executes
(R8, R12, R90 to R93). -/
def IsControlTransfer (i : Instr) (s : State) : Prop :=
  match i with
  | .br n z p _ => (n = true ∧ s.cond = .n) ∨ (z = true ∧ s.cond = .z) ∨ (p = true ∧ s.cond = .p)
  | .jmp _ | .jsr _ | .jsrr _ => True
  | .addR _ _ _ | .addI _ _ _ | .andR _ _ _ | .andI _ _ _ | .notR _ _ => False
  | .ld _ _ | .ldi _ _ | .ldr _ _ _ | .lea _ _ | .st _ _ | .sti _ _ | .str _ _ _ => False
  | .rti | .res | .trap _ | .getc | .out | .puts | .inChar | .putsp | .halt => False

/-- What every TRAP does and keeps, beyond R0, the streams and the stop (R120, R122): R7 holds the return address; R1 to
R6, `cond`, `pc`, memory, the word in progress and the launch parameters are as before. -/
def EntersTrap (s t : State) : Prop :=
  t.reg .r7 = s.pc ∧ SameRegsExcept [.r0, .r7] s t ∧ t.cond = s.cond ∧ t.pc = s.pc ∧ SameMemory s t ∧ t.ir = s.ir ∧
    t.params = s.params

/-- The run has ended with `cause`, recorded as R170 says. -/
def StopsWith (cause : StopCause) (s t : State) : Prop :=
  t.run = .halted ∧ t.stop = some ⟨cause, s.pc + 0xFFFF#16, field s.ir 12 4, field s.ir 0 8⟩

/-- The output sink accepts the next `n` requests (R183). -/
def State.sinkAccepts (s : State) (n : Nat) : Prop :=
  ∀ k, s.sink = some k → n ≤ k

/-- The events `es`, and no others, were accepted by the sink since `s` (R183). -/
def Sends (es : List OutEvent) (s t : State) : Prop :=
  t.output = s.output ++ es ∧ t.sink = s.sink.map (· - es.length)

/-- The cell at offset `i` of the string at `x[0]`; addresses wrap (R125, R127, D25). -/
def State.stringCell (s : State) (i : Nat) : Word :=
  s.load (s.reg .r0 + BitVec.ofNat 16 i)

/-- The `i`-th byte of the packed string at `x[0]`, low byte first (R127). -/
def State.packedByte (s : State) (i : Nat) : Byte :=
  if i % 2 = 0 then (s.stringCell (i / 2)).setWidth 8 else (s.stringCell (i / 2) >>> 8).setWidth 8

/-- The register whose new value the condition state describes after `i`: the DR of the seven flag-writing opcodes
(R17). -/
def flagDest : Instr → Option Reg
  | .addR dr _ _ | .addI dr _ _ | .andR dr _ _ | .andI dr _ _ | .notR dr _ => some dr
  | .ld dr _ | .ldi dr _ | .ldr dr _ _ | .lea dr _ => some dr
  | .br _ _ _ _ | .jmp _ | .jsr _ | .jsrr _ | .st _ _ | .sti _ _ | .str _ _ _ | .rti | .res | .trap _ | .getc | .out
  | .puts | .inChar | .putsp | .halt => none

/-- The general registers an instruction writes (R11). -/
def registersWritten : Instr → List Reg
  | .addR dr _ _ | .addI dr _ _ | .andR dr _ _ | .andI dr _ _ | .notR dr _ => [dr]
  | .ld dr _ | .ldi dr _ | .ldr dr _ _ | .lea dr _ => [dr]
  | .jsr _ | .jsrr _ | .trap _ | .out | .puts | .putsp | .halt => [.r7]
  | .getc | .inChar => [.r7, .r0]
  | .br _ _ _ _ | .jmp _ | .st _ _ | .sti _ _ | .str _ _ _ | .rti | .res => []

/-- The cell an instruction writes and the value it writes there (R39, R110 to R112); no other instruction writes
memory. -/
def storeTarget (i : Instr) (s : State) : Option (Word × Word) :=
  match i with
  | .st sr off => some (s.pcRelative off, s.reg sr)
  | .sti sr off => some (s.indirect off, s.reg sr)
  | .str sr base off => some (s.baseOffset base off, s.reg sr)
  | .br _ _ _ _ | .addR _ _ _ | .addI _ _ _ | .andR _ _ _ | .andI _ _ _ | .notR _ _ | .jmp _ | .jsr _ | .jsrr _
  | .ld _ _ | .ldi _ _ | .ldr _ _ _ | .lea _ _ | .rti | .res | .trap _ | .getc | .out | .puts | .inChar | .putsp
  | .halt => none

/-- The stops that executing an instruction can raise (R171), address-space exhaustion apart: that one is raised at the
end of the step. -/
def stopCauses : Instr → List StopCause
  | .rti | .res => [.reservedOpcode]
  | .trap _ => [.unknownTrap]
  | .out | .puts | .inChar | .putsp => [.ioFailure]
  | .halt => [.halt, .ioFailure]
  | .br _ _ _ _ | .addR _ _ _ | .addI _ _ _ | .andR _ _ _ | .andI _ _ _ | .notR _ _ | .jmp _ | .jsr _ | .jsrr _
  | .ld _ _ | .ldi _ _ | .ldr _ _ _ | .lea _ _ | .st _ _ | .sti _ _ | .str _ _ _ | .getc => []

/-- A result with the condition state of every state in it set to `c`. -/
def withCond (c : Cond) : Result → Result
  | .next t => .next { t with cond := c }
  | .fault (.blockedOnInput mid) => .fault (.blockedOnInput { mid with cond := c })
  | .fault .halted => .fault .halted
  | .fault .endlessString => .fault .endlessString
  | .refused q => .refused q

end Sys2Proof.Machine
end

