-- ==== Sys2Proof/Certificates/Slice0/Obligations.lean ====
section
/-! DEFINITION. The statements for the provers. A word is written as the concatenation of its fields, bit 15 first, as the
formats of 30_encoding.md R53 draw it; `u`, `u'` stand for bits that R53 marks unused. -/

open Sys2Proof Sys2Proof.Machine

/-! ### Notation and operands -/

/-- 00_scope.md R7: sign extension of a field of any width from 1 to 16, and zero extension of a byte. -/
def Obligations.SignAndZeroExtension : Prop :=
  ∀ n : Nat, 1 ≤ n → n ≤ 16 →
    (∀ f : BitVec n,
      (sext f).toNat = if f.getLsbD (n - 1) then f.toNat + (65536 - 2 ^ n) else f.toNat) ∧
    ∀ c : Byte, (zext c).toNat = c.toNat

/-- 40_operate.md R86: adding a sign-extended field of width 5, 6, 9 or 11 is adding its signed value modulo 65536. -/
def Obligations.SextThenAddIsSignedAdd : Prop :=
  ∀ n ∈ [5, 6, 9, 11], ∀ (f : BitVec n) (x : Word),
    ((x + sext f).toNat : Int) =
      ((x.toNat : Int) + (if f.toNat < 2 ^ (n - 1) then (f.toNat : Int) else (f.toNat : Int) - 2 ^ n)) % 65536

/-! ### Memory -/

/-- The canonical form of a memory determines it: two canonical memories that read alike are equal. The form is the
model's own (log 1). -/
def Obligations.CanonicalMemoryIsDeterminedByItsReads : Prop :=
  ∀ m m' : Memory, m.wf → m'.wf → (∀ a : Word, m.read a = m'.read a) → m = m'

/-! ### Operate instructions -/

/-- 40_operate.md R80: ADD, register form. -/
def Obligations.AddRegisterForm : Prop :=
  ∀ (dr sr1 sr2 : Reg) (u : BitVec 2) (s : State),
    decode (0b0001#4 ++ dr.bits ++ sr1.bits ++ 0b0#1 ++ u ++ sr2.bits) = .addR dr sr1 sr2 ∧
    ∃ t, exec (.addR dr sr1 sr2) s = .next t ∧ WritesResult dr (s.reg sr1 + s.reg sr2) s t

/-- 40_operate.md R81: ADD, immediate form. -/
def Obligations.AddImmediateForm : Prop :=
  ∀ (dr sr1 : Reg) (imm : BitVec 5) (s : State),
    decode (0b0001#4 ++ dr.bits ++ sr1.bits ++ 0b1#1 ++ imm) = .addI dr sr1 imm ∧
    ∃ t, exec (.addI dr sr1 imm) s = .next t ∧ WritesResult dr (s.reg sr1 + imm.signExtend 16) s t

/-- 40_operate.md R82: AND, register form. -/
def Obligations.AndRegisterForm : Prop :=
  ∀ (dr sr1 sr2 : Reg) (u : BitVec 2) (s : State),
    decode (0b0101#4 ++ dr.bits ++ sr1.bits ++ 0b0#1 ++ u ++ sr2.bits) = .andR dr sr1 sr2 ∧
    ∃ t, exec (.andR dr sr1 sr2) s = .next t ∧ WritesResult dr (s.reg sr1 &&& s.reg sr2) s t

/-- 40_operate.md R83: AND, immediate form. -/
def Obligations.AndImmediateForm : Prop :=
  ∀ (dr sr1 : Reg) (imm : BitVec 5) (s : State),
    decode (0b0101#4 ++ dr.bits ++ sr1.bits ++ 0b1#1 ++ imm) = .andI dr sr1 imm ∧
    ∃ t, exec (.andI dr sr1 imm) s = .next t ∧ WritesResult dr (s.reg sr1 &&& imm.signExtend 16) s t

/-- 40_operate.md R84: NOT. The complement of `v` is 65535 - v. -/
def Obligations.NotForm : Prop :=
  ∀ (dr sr : Reg) (u : BitVec 6) (s : State),
    decode (0b1001#4 ++ dr.bits ++ sr.bits ++ u) = .notR dr sr ∧
    ∃ t, exec (.notR dr sr) s = .next t ∧ WritesResult dr (BitVec.ofNat 16 (65535 - (s.reg sr).toNat)) s t

/-! ### Control transfer -/

/-- 41_control.md R90: BR. A taken branch counts as a load of `pc`, one not taken does not. -/
def Obligations.BranchOnCondition : Prop :=
  ∀ (n z p : Bool) (off : BitVec 9) (s : State),
    decode (0b0000#4 ++ BitVec.ofBool n ++ BitVec.ofBool z ++ BitVec.ofBool p ++ off) = .br n z p off ∧
    ∃ t, exec (.br n z p off) s = .next t ∧
      (((n = true ∧ s.cond = .n) ∨ (z = true ∧ s.cond = .z) ∨ (p = true ∧ s.cond = .p)) →
        loadsPc (.br n z p off) s = true ∧ Transfers [] (s.pc + off.signExtend 16) s t) ∧
      (¬((n = true ∧ s.cond = .n) ∨ (z = true ∧ s.cond = .z) ∨ (p = true ∧ s.cond = .p)) →
        loadsPc (.br n z p off) s = false ∧ Transfers [] s.pc s t)

/-- 41_control.md R91: JMP, RET included. -/
def Obligations.JumpThroughRegister : Prop :=
  ∀ (base : Reg) (u : BitVec 3) (u' : BitVec 6) (s : State),
    decode (0b1100#4 ++ u ++ base.bits ++ u') = .jmp base ∧
    ∃ t, exec (.jmp base) s = .next t ∧ Transfers [] (s.reg base) s t

/-- 41_control.md R92: JSR. -/
def Obligations.JumpToSubroutine : Prop :=
  ∀ (off : BitVec 11) (s : State),
    decode (0b0100#4 ++ 0b1#1 ++ off) = .jsr off ∧
    ∃ t, exec (.jsr off) s = .next t ∧ t.reg .r7 = s.pc ∧ Transfers [.r7] (s.pc + off.signExtend 16) s t

/-- 41_control.md R93: JSRR. That JSRR R7 falls through is the spec's decision D5 (log 12). -/
def Obligations.JumpToSubroutineThroughRegister : Prop :=
  ∀ (base : Reg) (u : BitVec 2) (u' : BitVec 6) (s : State),
    decode (0b0100#4 ++ 0b0#1 ++ u ++ base.bits ++ u') = .jsrr base ∧
    ∃ t, exec (.jsrr base) s = .next t ∧ t.reg .r7 = s.pc ∧
      Transfers [.r7] (if base = .r7 then s.pc else s.reg base) s t

/-! ### Loads and LEA -/

/-- 42_load.md R100: LD. -/
def Obligations.LoadPcRelative : Prop :=
  ∀ (dr : Reg) (off : BitVec 9) (s : State),
    decode (0b0010#4 ++ dr.bits ++ off) = .ld dr off ∧
    ∃ t, exec (.ld dr off) s = .next t ∧ WritesResult dr (s.load (s.pc + off.signExtend 16)) s t

/-- 42_load.md R101: LDI. -/
def Obligations.LoadIndirect : Prop :=
  ∀ (dr : Reg) (off : BitVec 9) (s : State),
    decode (0b1010#4 ++ dr.bits ++ off) = .ldi dr off ∧
    ∃ t, exec (.ldi dr off) s = .next t ∧ WritesResult dr (s.load (s.load (s.pc + off.signExtend 16))) s t

/-- 42_load.md R102: LDR. -/
def Obligations.LoadBaseOffset : Prop :=
  ∀ (dr base : Reg) (off : BitVec 6) (s : State),
    decode (0b0110#4 ++ dr.bits ++ base.bits ++ off) = .ldr dr base off ∧
    ∃ t, exec (.ldr dr base off) s = .next t ∧ WritesResult dr (s.load (s.reg base + off.signExtend 16)) s t

/-- 42_load.md R103: LEA. -/
def Obligations.LoadEffectiveAddress : Prop :=
  ∀ (dr : Reg) (off : BitVec 9) (s : State),
    decode (0b1110#4 ++ dr.bits ++ off) = .lea dr off ∧
    ∃ t, exec (.lea dr off) s = .next t ∧ WritesResult dr (s.pc + off.signExtend 16) s t

/-! ### Stores -/

/-- 43_store.md R110: ST. -/
def Obligations.StorePcRelative : Prop :=
  ∀ (sr : Reg) (off : BitVec 9) (s : State),
    decode (0b0011#4 ++ sr.bits ++ off) = .st sr off ∧
    ∃ t, exec (.st sr off) s = .next t ∧ WritesCell (s.pc + off.signExtend 16) (s.reg sr) s t

/-- 43_store.md R111: STI, and the source's round-trip property: the value is read back by LDI through any pointer cell
that then holds the same address, from any later `pc`. -/
def Obligations.StoreIndirect : Prop :=
  ∀ (sr : Reg) (off : BitVec 9) (s : State),
    decode (0b1011#4 ++ sr.bits ++ off) = .sti sr off ∧
    ∃ t, exec (.sti sr off) s = .next t ∧ WritesCell (s.load (s.pc + off.signExtend 16)) (s.reg sr) s t ∧
      ∀ (dr : Reg) (off' : BitVec 9) (pc' : Word),
        t.load (pc' + off'.signExtend 16) = s.load (s.pc + off.signExtend 16) →
        ∃ v, exec (.ldi dr off') { t with pc := pc' } = .next v ∧ v.reg dr = s.reg sr

/-- 43_store.md R112: STR. -/
def Obligations.StoreBaseOffset : Prop :=
  ∀ (sr base : Reg) (off : BitVec 6) (s : State),
    decode (0b0111#4 ++ sr.bits ++ base.bits ++ off) = .str sr base off ∧
    ∃ t, exec (.str sr base off) s = .next t ∧ WritesCell (s.reg base + off.signExtend 16) (s.reg sr) s t

/-! ### Reserved opcodes and unknown vectors -/

/-- 45_reserved.md R140: RTI stops the run with RESERVED_OPCODE and opcode 8, for every value of bits 11:0, and changes
nothing else but `pc`, which holds the address after it. That the record holds the word's address and its bits 7:0 is the
layout of 60_exceptions.md R170, the spec's decision D22 (log 18). -/
def Obligations.RtiStops : Prop :=
  ∀ (u : BitVec 12) (s : State),
    decode (0b1000#4 ++ u) = .rti ∧
    (∃ t, exec .rti s = .next t ∧ t.run = .halted ∧ SameRegsExcept [] s t ∧ t.cond = s.cond ∧ t.pc = s.pc ∧
      SameMemory s t ∧ SameStreams s t) ∧
    (s.run = .running → s.load s.pc = 0b1000#4 ++ u →
      ∃ t r, step s = .next t ∧ t.stop = some r ∧ r.cause = .reservedOpcode ∧ r.opcode = 8#4 ∧ r.address = s.pc ∧
        r.vector = u.setWidth 8 ∧ t.run = .halted ∧ t.pc = s.pc + 1#16 ∧ SameRegsExcept [] s t ∧ t.cond = s.cond ∧
        SameMemory s t ∧ SameStreams s t)

/-- 45_reserved.md R141: RES, as RTI, with opcode 13. That the record holds the word's address and its bits 7:0 is the layout
of 60_exceptions.md R170, the spec's decision D22 (log 18). -/
def Obligations.ResStops : Prop :=
  ∀ (u : BitVec 12) (s : State),
    decode (0b1101#4 ++ u) = .res ∧
    (∃ t, exec .res s = .next t ∧ t.run = .halted ∧ SameRegsExcept [] s t ∧ t.cond = s.cond ∧ t.pc = s.pc ∧
      SameMemory s t ∧ SameStreams s t) ∧
    (s.run = .running → s.load s.pc = 0b1101#4 ++ u →
      ∃ t r, step s = .next t ∧ t.stop = some r ∧ r.cause = .reservedOpcode ∧ r.opcode = 13#4 ∧ r.address = s.pc ∧
        r.vector = u.setWidth 8 ∧ t.run = .halted ∧ t.pc = s.pc + 1#16 ∧ SameRegsExcept [] s t ∧ t.cond = s.cond ∧
        SameMemory s t ∧ SameStreams s t)

/-- 44_trap.md R129: a TRAP with any of the 250 other vectors stops the run with UNKNOWN_TRAP and that vector; R7 holds the
return address (R120, as are the unused bits 11:8), and nothing else has changed and nothing was sent. That the record
holds the opcode and the word's address is the layout of 60_exceptions.md R170, the spec's decision D22 (log 18). -/
def Obligations.UnknownTrapStops : Prop :=
  ∀ (u : BitVec 4) (v : Byte) (s : State), v.toNat < 0x20 ∨ 0x25 < v.toNat →
    decode (0b1111#4 ++ u ++ v) = .trap v ∧
    (∃ t, exec (.trap v) s = .next t ∧ t.run = .halted ∧ EntersTrap s t ∧ t.reg .r0 = s.reg .r0 ∧ SameStreams s t) ∧
    (s.run = .running → s.load s.pc = 0b1111#4 ++ u ++ v →
      ∃ t r, step s = .next t ∧ t.stop = some r ∧ r.cause = .unknownTrap ∧ r.vector = v ∧ r.opcode = 15#4 ∧
        r.address = s.pc ∧ t.run = .halted ∧ t.pc = s.pc + 1#16 ∧ t.reg .r7 = s.pc + 1#16 ∧
        SameRegsExcept [.r7] s t ∧ t.cond = s.cond ∧ SameMemory s t ∧ SameStreams s t)

/-! ### The trap routines -/

/-- 60_exceptions.md R185, R186: the input source delivers its known bytes one at a time, in order, and then none, or free
bytes without end. The form of the source is the model's own (log 3). -/
def Obligations.InputIsDeliveredInOrder : Prop :=
  (∀ (c : Byte) (cs : List Byte) (b : Option Nat), InputSource.deliver ⟨c :: cs, b⟩ = some (c, ⟨cs, b⟩)) ∧
    InputSource.deliver ⟨[], none⟩ = none ∧
    ∀ n, InputSource.deliver ⟨[], some n⟩ = some (Config.inputByte n, ⟨[], some (n + 1)⟩)

/-- 44_trap.md R123: GETC takes one byte and puts it, zero-extended, into R0; no flag changes and nothing is sent. That a
character is one 8-bit byte is the spec's decision D7 (log 13). -/
def Obligations.GetcReadsOneByte : Prop :=
  ∀ (u : BitVec 4) (s : State) (c : Byte) (rest : InputSource),
    decode (0b1111#4 ++ u ++ 0x20#8) = .getc ∧
    (s.input.deliver = some (c, rest) →
      ∃ t, exec .getc s = .next t ∧ EntersTrap s t ∧ t.reg .r0 = 0x00#8 ++ c ∧ t.input = rest ∧ Sends [] s t ∧
        SameRun s t)

/-- 44_trap.md R124: OUT sends the low byte of R0 and no flush. That no flush is sent is the spec's decision D9 (log 14). -/
def Obligations.OutWritesLowByte : Prop :=
  ∀ (u : BitVec 4) (s : State),
    decode (0b1111#4 ++ u ++ 0x21#8) = .out ∧
    (s.sinkAccepts 1 →
      ∃ t, exec .out s = .next t ∧ EntersTrap s t ∧ t.reg .r0 = s.reg .r0 ∧ t.input = s.input ∧
        Sends [.out ((s.reg .r0).setWidth 8)] s t ∧ SameRun s t)

/-- 44_trap.md R125: PUTS sends the low bytes of the cells from `x[0]` up to the first zero cell, not included, and then a
flush. The low byte and the wrapping address are the spec's decisions D8 and D25 (log 13, log 15). -/
def Obligations.PutsWritesTheString : Prop :=
  ∀ (u : BitVec 4) (s : State) (n : Nat),
    decode (0b1111#4 ++ u ++ 0x22#8) = .puts ∧
    (n < 65536 → (∀ i < n, s.stringCell i ≠ 0#16) → s.stringCell n = 0#16 → s.sinkAccepts (n + 1) →
      ∃ t, exec .puts s = .next t ∧ EntersTrap s t ∧ t.reg .r0 = s.reg .r0 ∧ t.input = s.input ∧
        Sends ((List.range n).map (fun i => .out ((s.stringCell i).setWidth 8)) ++ [.flush]) s t ∧ SameRun s t)

/-- 44_trap.md R126: IN sends the prompt, takes one byte, sends it back, and puts it, zero-extended, into R0; no flag
changes. The prompt is the launch parameter, whatever it is; the echo is the spec's decision D26 (log 16). -/
def Obligations.InPromptsReadsAndEchoes : Prop :=
  ∀ (u : BitVec 4) (s : State) (c : Byte) (rest : InputSource),
    decode (0b1111#4 ++ u ++ 0x23#8) = .inChar ∧
    (s.input.deliver = some (c, rest) → s.sinkAccepts (s.params.inPrompt.length + 1) →
      ∃ t, exec .inChar s = .next t ∧ EntersTrap s t ∧ t.reg .r0 = 0x00#8 ++ c ∧ t.input = rest ∧
        Sends (s.params.inPrompt.map .out ++ [.out c]) s t ∧ SameRun s t)

/-- 44_trap.md R127: PUTSP sends the bytes of the packed string at `x[0]`, low byte first, up to the first zero byte, not
included, and then a flush. The wrapping address is the spec's decision D25 (log 15). -/
def Obligations.PutspWritesThePackedString : Prop :=
  ∀ (u : BitVec 4) (s : State) (n : Nat),
    decode (0b1111#4 ++ u ++ 0x24#8) = .putsp ∧
    (n < 131072 → (∀ i < n, s.packedByte i ≠ 0#8) → s.packedByte n = 0#8 → s.sinkAccepts (n + 1) →
      ∃ t, exec .putsp s = .next t ∧ EntersTrap s t ∧ t.reg .r0 = s.reg .r0 ∧ t.input = s.input ∧
        Sends ((List.range n).map (fun i => .out (s.packedByte i)) ++ [.flush]) s t ∧ SameRun s t)

/-- 44_trap.md R128: HALT sends the notice and a flush and stops the run with HALT; `pc` and R7 hold the address after it.
The notice is the launch parameter, whatever it is. The layout of the record is the spec's decision D22 (log 18). -/
def Obligations.HaltStopsTheRun : Prop :=
  ∀ (u : BitVec 4) (s : State),
    decode (0b1111#4 ++ u ++ 0x25#8) = .halt ∧
    (s.sinkAccepts (s.params.haltNotice.length + 1) →
      ∃ t, exec .halt s = .next t ∧ EntersTrap s t ∧ t.reg .r0 = s.reg .r0 ∧ t.input = s.input ∧
        Sends (s.params.haltNotice.map .out ++ [.flush]) s t ∧ StopsWith .halt s t)

/-! ### Refused output, blocked input, endless strings -/

/-- 44_trap.md R130: OUT, IN and HALT end at the first refused request with IO_FAILURE. The events before it were delivered,
it and the later ones were not, and R0 is as before. In IN the byte has been taken when the echo is the refused request.
That the sink may refuse is the spec's decision D13 (log 5). -/
def Obligations.RefusedOutputStopsOutInHalt : Prop :=
  ∀ (s : State) (k : Nat), s.sink = some k →
    (k = 0 → ∃ t, exec .out s = .next t ∧ EntersTrap s t ∧ t.reg .r0 = s.reg .r0 ∧ StopsWith .ioFailure s t ∧
      t.output = s.output ∧ t.input = s.input) ∧
    (k ≤ s.params.haltNotice.length → ∃ t, exec .halt s = .next t ∧ EntersTrap s t ∧ t.reg .r0 = s.reg .r0 ∧
      StopsWith .ioFailure s t ∧ t.output = s.output ++ (s.params.haltNotice.take k).map .out ∧ t.input = s.input) ∧
    (k < s.params.inPrompt.length → ∃ t, exec .inChar s = .next t ∧ EntersTrap s t ∧ t.reg .r0 = s.reg .r0 ∧
      StopsWith .ioFailure s t ∧ t.output = s.output ++ (s.params.inPrompt.take k).map .out ∧ t.input = s.input) ∧
    (∀ c rest, k = s.params.inPrompt.length → s.input.deliver = some (c, rest) → ∃ t, exec .inChar s = .next t ∧ EntersTrap s t ∧
      t.reg .r0 = s.reg .r0 ∧ StopsWith .ioFailure s t ∧ t.output = s.output ++ s.params.inPrompt.map .out ∧
      t.input = rest)

/-- 44_trap.md R130: PUTS and PUTSP end at the first refused request with IO_FAILURE, be it a byte or the flush: when the
sink accepts `k` more requests and the first `k` bytes of the string are there, exactly those are delivered. This holds
for a string that never ends too. That the sink may refuse is the spec's decision D13 (log 5). -/
def Obligations.RefusedOutputStopsPutsPutsp : Prop :=
  ∀ (s : State) (k : Nat), s.sink = some k →
    ((∀ i < k, s.stringCell i ≠ 0#16) → ∃ t, exec .puts s = .next t ∧ EntersTrap s t ∧ t.reg .r0 = s.reg .r0 ∧
      StopsWith .ioFailure s t ∧ t.input = s.input ∧
      t.output = s.output ++ (List.range k).map (fun i => .out ((s.stringCell i).setWidth 8))) ∧
    ((∀ i < k, s.packedByte i ≠ 0#8) → ∃ t, exec .putsp s = .next t ∧ EntersTrap s t ∧ t.reg .r0 = s.reg .r0 ∧
      StopsWith .ioFailure s t ∧ t.input = s.input ∧
      t.output = s.output ++ (List.range k).map (fun i => .out (s.packedByte i)))

/-- 44_trap.md R131: PUTS has no successor exactly when the sink never refuses and no cell of memory is zero, PUTSP exactly
when the sink never refuses and no byte of memory is zero. That such a hang is the fault `endlessString` is the model's
choice (log 9). -/
def Obligations.EndlessStringExactlyWithoutTerminator : Prop :=
  ∀ s : State,
    (exec .puts s = .fault .endlessString ↔ s.sink = none ∧ ∀ a : Word, s.load a ≠ 0#16) ∧
    (exec .putsp s = .fault .endlessString ↔
      s.sink = none ∧ ∀ a : Word, (s.load a).setWidth 8 ≠ 0#8 ∧ (s.load a >>> 8).setWidth 8 ≠ 0#8)

/-- 44_trap.md R131: with no byte to come (log 3), GETC is stuck with R7 written, and IN with R7 written and the prompt sent; the
run has not stopped. That a stuck step is the fault `blockedOnInput` is the spec's decision D12 (log 4). -/
def Obligations.InputThatNeverComesBlocks : Prop :=
  ∀ s : State, s.input.deliver = none →
    (∃ mid, exec .getc s = .fault (.blockedOnInput mid) ∧ EntersTrap s mid ∧ mid.reg .r0 = s.reg .r0 ∧
      mid.input = s.input ∧ Sends [] s mid ∧ SameRun s mid) ∧
    (s.sinkAccepts s.params.inPrompt.length →
      ∃ mid, exec .inChar s = .fault (.blockedOnInput mid) ∧ EntersTrap s mid ∧ mid.reg .r0 = s.reg .r0 ∧
        mid.input = s.input ∧ Sends (s.params.inPrompt.map .out) s mid ∧ SameRun s mid)

/-! ### The instruction cycle -/

/-- 50_instruction_cycle.md R150: a step fetches the word at `pc`, increments `pc`, decodes the word and executes the
instruction, which is never refused; at the top of memory the exhaustion test follows (the spec's decision D3; log 11). -/
def Obligations.StepRunsTheDecodedInstruction : Prop :=
  ∀ (s f : State) (i : Instr), s.run = .running → i = decode (s.load s.pc) →
    f = { s with ir := s.load s.pc, pc := s.pc + 1#16 } →
    (∀ t, exec i f = .next t → step s = .next
      (if s.pc = 0xFFFF#16 ∧ loadsPc i f = false ∧ t.run = .running then t.raiseStop .exhausted else t)) ∧
    (∀ e, exec i f = .fault e → step s = .fault e) ∧
    ∀ q, exec i f ≠ .refused q

/-- 50_instruction_cycle.md R157: no step is enabled exactly when the run has ended. That this is a fault of its own is the
model's choice (log 8). -/
def Obligations.NoStepExactlyWhenHalted : Prop :=
  ∀ s : State, step s = .fault .halted ↔ s.run = .halted

/-- 50_instruction_cycle.md R155 and 60_exceptions.md R174, the spec's decisions D3 and D21 (log 11, log 19): an instruction
fetched from 0xFFFF that neither is a taken BR, a JMP, a JSR or a JSRR nor stops is executed in full and then the run ends
with EXHAUSTED and `pc = 0`; one that is, or that stops by itself, ends its step as anywhere else; and EXHAUSTED arises
nowhere else. -/
def Obligations.ExhaustionAtTheTopOnly : Prop :=
  ∀ (s f t : State) (i : Instr), s.run = .running → i = decode (s.load s.pc) →
    f = { s with ir := s.load s.pc, pc := s.pc + 1#16 } → exec i f = .next t →
    (s.pc = 0xFFFF#16 → ¬IsControlTransfer i f → t.run = .running →
      ∃ t', step s = .next t' ∧ t'.run = .halted ∧ t'.pc = 0#16 ∧
        t'.stop = some ⟨.exhausted, 0xFFFF#16, field (s.load s.pc) 12 4, field (s.load s.pc) 0 8⟩ ∧
        t'.cond = t.cond ∧ SameRegsExcept [] t t' ∧ SameMemory t t' ∧ SameStreams t t') ∧
    (s.pc = 0xFFFF#16 → IsControlTransfer i f ∨ t.run = .halted → step s = .next t) ∧
    (s.pc ≠ 0xFFFF#16 → step s = .next t) ∧
    (s.stop = none → ∀ r, t.stop = some r → r.cause ≠ .exhausted)

/-- 10_state.md R21: what `ir` holds between steps has no meaning; no step depends on it. That State holds it is the model's
choice (log 2). -/
def Obligations.StepIgnoresTheOldInstructionWord : Prop :=
  ∀ (s : State) (w : Word), s.run = .running → step { s with ir := w } = step s

/-- 20_memory.md R44: a store is seen by the fetch of the very next step, when that step fetches the stored cell. The word a
step has fetched is read from `ir` after it, which State holds by the model's choice (log 2). -/
def Obligations.NextFetchSeesTheStore : Prop :=
  ∀ (s : State) (a v : Word), s.run = .running → storeTarget (decode (s.load s.pc)) s.fetch = some (a, v) →
    ∃ t, step s = .next t ∧ t.load a = v ∧ t.ir = s.load s.pc ∧
      (t.pc = a → t.fetch.ir = v ∧ ∀ u, step t = .next u → u.ir = v)

/-! ### Rules about all instructions -/

/-- 10_state.md R22, 43_store.md R113, 44_trap.md R122: memory is written by ST, STI and STR alone, each in the one cell it
names. -/
def Obligations.OnlyStoresWriteMemory : Prop :=
  ∀ (i : Instr) (s t : State), exec i s = .next t →
    ∀ a, t.load a =
      match storeTarget i s with
      | some (x, v) => if a = x then v else s.load a
      | none => s.load a

/-- 10_state.md R17: the seven opcodes ADD, AND, NOT, LD, LDI, LDR, LEA set `cond` from the value they have written to DR,
and no other instruction changes `cond`. -/
def Obligations.OnlySevenOpcodesWriteCond : Prop :=
  ∀ (i : Instr) (s t : State), exec i s = .next t →
    t.cond =
      match flagDest i with
      | some dr => conditionOf (t.reg dr)
      | none => s.cond

/-- 10_state.md R18: only BR reads `cond`. The answer of every other instruction is the same for every condition state it
starts from, but for the condition state it leaves. -/
def Obligations.OnlyBrReadsCond : Prop :=
  ∀ (i : Instr) (s : State) (c : Cond), i.opcode ≠ .br →
    withCond .z (exec i { s with cond := c }) = withCond .z (exec i s)

/-- 10_state.md R11, 44_trap.md R122: an instruction changes no general register but those R11 says it writes. -/
def Obligations.RegistersWrittenAsTabled : Prop :=
  ∀ (i : Instr) (s t : State), i.wf = true → exec i s = .next t → SameRegsExcept (registersWritten i) s t

/-- 44_trap.md R122: a TRAP writes R7 on entry and at most R0 after it: never R1 to R6, `pc`, `cond` or memory, whether the
routine completes, stops the run or waits for input; and only GETC and IN write R0. That R7 takes `pc` is R120; the wait is
R131, and the state of a routine that waits is the one the fault `blockedOnInput` carries, the model's choice (log 4). -/
def Obligations.TrapSideEffectsAreConfined : Prop :=
  ∀ (i : Instr) (s t : State), i.wf = true → i.opcode = .trap →
    exec i s = .next t ∨ exec i s = .fault (.blockedOnInput t) →
    EntersTrap s t ∧ (i ≠ .getc → i ≠ .inChar → t.reg .r0 = s.reg .r0)

/-- 00_scope.md R8, 10_state.md R12, R13, 50_instruction_cycle.md R155: `loadsPc`, which the end of a step tests, is true of
a taken BR, JMP, JSR and JSRR and false of every other instruction, constructor by constructor; and no other instruction
changes `pc` beyond the fetch increment. That the step tests a function `loadsPc` is the model's choice (log 26). -/
def Obligations.OnlyTransfersLoadPc : Prop :=
  ∀ (i : Instr) (s : State),
    (loadsPc i s = true ↔ IsControlTransfer i s) ∧
    ∀ t, exec i s = .next t → ¬IsControlTransfer i s → t.pc = s.pc

/-- 60_exceptions.md R171, R172: executing an instruction ends the run only by a cause that R171 gives it, recorded as R170
says; ADD, AND, NOT, BR, JMP, JSR, JSRR, LD, LDI, LDR, LEA, ST, STI, STR and GETC never end it. -/
def Obligations.StopsAreRaisedAsTabled : Prop :=
  ∀ (i : Instr) (s t : State), i.wf = true → exec i s = .next t →
    (t.run = s.run ∧ t.stop = s.stop) ∨ ∃ c ∈ stopCauses i, StopsWith c s t

/-- No instruction of any kind is refused, and a running machine has a next state unless a GETC or IN waits for a byte that
never comes, or a PUTS or PUTSP scans a string without end (60_exceptions.md R172, 44_trap.md R131; log 4, log 9). -/
def Obligations.RunningMachineStepsUnlessStuck : Prop :=
  ∀ s : State, s.run = .running →
    (∃ t, step s = .next t) ∨
    (∃ mid, step s = .fault (.blockedOnInput mid) ∧ s.input.deliver = none ∧
      (decode (s.load s.pc) = .getc ∨ decode (s.load s.pc) = .inChar)) ∨
    (step s = .fault .endlessString ∧ s.sink = none ∧
      (decode (s.load s.pc) = .puts ∨ decode (s.load s.pc) = .putsp))

/-- 10_state.md R23, 60_exceptions.md R183, R185: a step only appends to the output history, each event accepted by the
sink; it takes at most one input byte, the next one, and only in GETC or IN; and it leaves the launch parameters alone.
The fields for the streams are the model's own (log 3, log 5, log 6, log 7). -/
def Obligations.StreamsOnlyAdvance : Prop :=
  ∀ s t : State, step s = .next t →
    (∃ es, Sends es s t ∧ s.sinkAccepts es.length) ∧
    (t.input = s.input ∨
      (∃ c, s.input.deliver = some (c, t.input)) ∧ (decode (s.load s.pc) = .getc ∨ decode (s.load s.pc) = .inChar)) ∧
    t.params = s.params

/-- Every step keeps the invariant: memory stays canonical (log 1), there is a stop record exactly when the run has ended
(10_state.md R20), and the record names the stopping instruction and a cause that fits it (60_exceptions.md R170, R171,
R175; log 18). -/
def Obligations.StepKeepsTheInvariant : Prop :=
  ∀ s t : State, s.Inv → step s = .next t → t.Inv

/-! ### Reset and loading -/

/-- The state after reset meets the invariant. -/
def Obligations.ResetMeetsTheInvariant : Prop :=
  State.reset.Inv

/-- 10_state.md R25, 70_reset_and_hazards.md R200: the values after reset. `cond = Z`, `stop = None` and the empty output
history are the spec's decisions D1, D6 and D23 (log 10, log 18, log 7). -/
def Obligations.ResetValues : Prop :=
  (∀ r, State.reset.reg r = 0#16) ∧ State.reset.pc = 0#16 ∧ State.reset.cond = .z ∧
    (∀ a, State.reset.load a = 0#16) ∧ State.reset.run = .running ∧ State.reset.stop = none ∧
    State.reset.output = []

/-- 70_reset_and_hazards.md R203: loading an image that fits puts it into consecutive cells from ORIGIN and ORIGIN into `pc`
and changes nothing else; an image that does not fit is refused, which is the spec's decision D14 (log 20). -/
def Obligations.LoadImageContract : Prop :=
  ∀ (s : State) (origin : Word) (image : List Word),
    (origin.toNat + image.length ≤ 65536 →
      ∃ t, s.loadImage origin image = some t ∧ t.pc = origin ∧
        (∀ a : Word, t.load a =
          if origin.toNat ≤ a.toNat ∧ a.toNat < origin.toNat + image.length
          then image.getD (a.toNat - origin.toNat) 0#16 else s.load a) ∧
        SameRegsExcept [] s t ∧ t.cond = s.cond ∧ SameRun s t ∧ SameStreams s t) ∧
    (65536 < origin.toNat + image.length → s.loadImage origin image = none)

/-- 70_reset_and_hazards.md R205: an image file is big-endian words, the first one ORIGIN; one with no byte or an odd number
of bytes is refused, which is the spec's decision D14 (log 20). -/
def Obligations.ImageFileIsBigEndianWords : Prop :=
  (∀ (origin : Word) (image : List Word),
    parseImage ((origin :: image).flatMap fun w : Word => [(w >>> 8).setWidth 8, w.setWidth 8]) = some (origin, image)) ∧
  ∀ bytes : List Byte, bytes = [] ∨ bytes.length % 2 = 1 → parseImage bytes = none

/-! ### Encoding -/

/-- 30_encoding.md R64: decoding the encoding of a well-formed instruction gives it back, with every operand at every
value. -/
def Obligations.DecodeInvertsEncode : Prop :=
  ∀ i : Instr, i.wf = true → decode (encode i) = i

/-- The decoder gives well-formed instructions only, and encoding the decoding of a word changes only bits that R53 marks
unused in its format (30_encoding.md R55, R64). -/
def Obligations.EncodeChangesOnlyUnusedBits : Prop :=
  ∀ w : Word, (decode w).wf = true ∧
    (encode (decode w) ^^^ w) &&& ~~~((decode w).form.unusedBits) = 0#16

/-- 30_encoding.md R55, the spec's decision D15 (log 17): changing unused bits of a word does not change its decoding. -/
def Obligations.UnusedBitsAreIgnored : Prop :=
  ∀ w u : Word, decode (w ^^^ (u &&& (decode w).form.unusedBits)) = decode w

/-- 30_encoding.md R65: a word selects a row of the opcode table exactly when its decoding has the row's form, and there is
one row for each form, so every word selects exactly one row. -/
def Obligations.OpcodeRowsPartitionTheWords : Prop :=
  (∀ w : Word, ∀ row ∈ opcodeRows, row.selects w = true ↔ (decode w).form = row.form) ∧
  ∀ f : Form, (opcodeRows.filter (·.form = f)).length = 1

/-- Words of 95_test_vectors.md, V-DEC and Part 3, and what they decode to: one of each family. -/
def Obligations.SampleWordsDecode : Prop :=
  decode 0x03FD#16 = .br false false true 0x1FD#9 ∧ decode 0x1419#16 = .addR .r2 .r0 .r1 ∧
    decode 0x127F#16 = .addI .r1 .r1 0x1F#5 ∧ decode 0x9B40#16 = .notR .r5 .r5 ∧ decode 0x480F#16 = .jsr 0x00F#11 ∧
    decode 0x46BF#16 = .jsrr .r2 ∧ decode 0x6641#16 = .ldr .r3 .r1 0x01#6 ∧ decode 0x380D#16 = .st .r4 0x00D#9 ∧
    decode 0xFF25#16 = .halt ∧ decode 0xF099#16 = .trap 0x99#8 ∧ decode 0x8FFF#16 = .rti ∧ decode 0xDABC#16 = .res
end

