-- ==== Sys2Proof/Laws/State.lean ====
section
/-! SUPPORT. What each update of the state does to each field, and to the reads of a register and of a cell; all true by
unfolding, so that no later proof unfolds an update. -/

namespace Sys2Proof.Machine

/-! `setReg` -/

@[simp] theorem State.setReg_regs (s : State) (r : Reg) (v : Word) : (s.setReg r v).regs = s.regs.set r v := rfl
@[simp] theorem State.setReg_pc (s : State) (r : Reg) (v : Word) : (s.setReg r v).pc = s.pc := rfl
@[simp] theorem State.setReg_cond (s : State) (r : Reg) (v : Word) : (s.setReg r v).cond = s.cond := rfl
@[simp] theorem State.setReg_run (s : State) (r : Reg) (v : Word) : (s.setReg r v).run = s.run := rfl
@[simp] theorem State.setReg_stop (s : State) (r : Reg) (v : Word) : (s.setReg r v).stop = s.stop := rfl
@[simp] theorem State.setReg_ir (s : State) (r : Reg) (v : Word) : (s.setReg r v).ir = s.ir := rfl
@[simp] theorem State.setReg_mem (s : State) (r : Reg) (v : Word) : (s.setReg r v).mem = s.mem := rfl
@[simp] theorem State.setReg_output (s : State) (r : Reg) (v : Word) : (s.setReg r v).output = s.output := rfl
@[simp] theorem State.setReg_input (s : State) (r : Reg) (v : Word) : (s.setReg r v).input = s.input := rfl
@[simp] theorem State.setReg_sink (s : State) (r : Reg) (v : Word) : (s.setReg r v).sink = s.sink := rfl
@[simp] theorem State.setReg_params (s : State) (r : Reg) (v : Word) : (s.setReg r v).params = s.params := rfl
@[simp] theorem State.setReg_load (s : State) (r : Reg) (v : Word) (x : Word) : (s.setReg r v).load x = s.load x := rfl

/-! `setPc` -/

@[simp] theorem State.setPc_regs (s : State) (v : Word) : (s.setPc v).regs = s.regs := rfl
@[simp] theorem State.setPc_pc (s : State) (v : Word) : (s.setPc v).pc = v := rfl
@[simp] theorem State.setPc_cond (s : State) (v : Word) : (s.setPc v).cond = s.cond := rfl
@[simp] theorem State.setPc_run (s : State) (v : Word) : (s.setPc v).run = s.run := rfl
@[simp] theorem State.setPc_stop (s : State) (v : Word) : (s.setPc v).stop = s.stop := rfl
@[simp] theorem State.setPc_ir (s : State) (v : Word) : (s.setPc v).ir = s.ir := rfl
@[simp] theorem State.setPc_mem (s : State) (v : Word) : (s.setPc v).mem = s.mem := rfl
@[simp] theorem State.setPc_output (s : State) (v : Word) : (s.setPc v).output = s.output := rfl
@[simp] theorem State.setPc_input (s : State) (v : Word) : (s.setPc v).input = s.input := rfl
@[simp] theorem State.setPc_sink (s : State) (v : Word) : (s.setPc v).sink = s.sink := rfl
@[simp] theorem State.setPc_params (s : State) (v : Word) : (s.setPc v).params = s.params := rfl
@[simp] theorem State.setPc_load (s : State) (v : Word) (x : Word) : (s.setPc v).load x = s.load x := rfl
@[simp] theorem State.setPc_reg (s : State) (v : Word) (q : Reg) : (s.setPc v).reg q = s.reg q := rfl

/-! `setcc` -/

@[simp] theorem State.setcc_regs (s : State) (v : Word) : (s.setcc v).regs = s.regs := rfl
@[simp] theorem State.setcc_pc (s : State) (v : Word) : (s.setcc v).pc = s.pc := rfl
@[simp] theorem State.setcc_cond (s : State) (v : Word) : (s.setcc v).cond = Cond.ofValue v := rfl
@[simp] theorem State.setcc_run (s : State) (v : Word) : (s.setcc v).run = s.run := rfl
@[simp] theorem State.setcc_stop (s : State) (v : Word) : (s.setcc v).stop = s.stop := rfl
@[simp] theorem State.setcc_ir (s : State) (v : Word) : (s.setcc v).ir = s.ir := rfl
@[simp] theorem State.setcc_mem (s : State) (v : Word) : (s.setcc v).mem = s.mem := rfl
@[simp] theorem State.setcc_output (s : State) (v : Word) : (s.setcc v).output = s.output := rfl
@[simp] theorem State.setcc_input (s : State) (v : Word) : (s.setcc v).input = s.input := rfl
@[simp] theorem State.setcc_sink (s : State) (v : Word) : (s.setcc v).sink = s.sink := rfl
@[simp] theorem State.setcc_params (s : State) (v : Word) : (s.setcc v).params = s.params := rfl
@[simp] theorem State.setcc_load (s : State) (v : Word) (x : Word) : (s.setcc v).load x = s.load x := rfl
@[simp] theorem State.setcc_reg (s : State) (v : Word) (q : Reg) : (s.setcc v).reg q = s.reg q := rfl

/-! `writeResult` -/

@[simp] theorem State.writeResult_regs (s : State) (r : Reg) (v : Word) : (s.writeResult r v).regs = s.regs.set r v := rfl
@[simp] theorem State.writeResult_pc (s : State) (r : Reg) (v : Word) : (s.writeResult r v).pc = s.pc := rfl
@[simp] theorem State.writeResult_cond (s : State) (r : Reg) (v : Word) : (s.writeResult r v).cond = Cond.ofValue v := rfl
@[simp] theorem State.writeResult_run (s : State) (r : Reg) (v : Word) : (s.writeResult r v).run = s.run := rfl
@[simp] theorem State.writeResult_stop (s : State) (r : Reg) (v : Word) : (s.writeResult r v).stop = s.stop := rfl
@[simp] theorem State.writeResult_ir (s : State) (r : Reg) (v : Word) : (s.writeResult r v).ir = s.ir := rfl
@[simp] theorem State.writeResult_mem (s : State) (r : Reg) (v : Word) : (s.writeResult r v).mem = s.mem := rfl
@[simp] theorem State.writeResult_output (s : State) (r : Reg) (v : Word) : (s.writeResult r v).output = s.output := rfl
@[simp] theorem State.writeResult_input (s : State) (r : Reg) (v : Word) : (s.writeResult r v).input = s.input := rfl
@[simp] theorem State.writeResult_sink (s : State) (r : Reg) (v : Word) : (s.writeResult r v).sink = s.sink := rfl
@[simp] theorem State.writeResult_params (s : State) (r : Reg) (v : Word) : (s.writeResult r v).params = s.params := rfl
@[simp] theorem State.writeResult_load (s : State) (r : Reg) (v : Word) (x : Word) : (s.writeResult r v).load x = s.load x := rfl

/-! `store` -/

@[simp] theorem State.store_regs (s : State) (a v : Word) : (s.store a v).regs = s.regs := rfl
@[simp] theorem State.store_pc (s : State) (a v : Word) : (s.store a v).pc = s.pc := rfl
@[simp] theorem State.store_cond (s : State) (a v : Word) : (s.store a v).cond = s.cond := rfl
@[simp] theorem State.store_run (s : State) (a v : Word) : (s.store a v).run = s.run := rfl
@[simp] theorem State.store_stop (s : State) (a v : Word) : (s.store a v).stop = s.stop := rfl
@[simp] theorem State.store_ir (s : State) (a v : Word) : (s.store a v).ir = s.ir := rfl
@[simp] theorem State.store_mem (s : State) (a v : Word) : (s.store a v).mem = s.mem.write a v := rfl
@[simp] theorem State.store_output (s : State) (a v : Word) : (s.store a v).output = s.output := rfl
@[simp] theorem State.store_input (s : State) (a v : Word) : (s.store a v).input = s.input := rfl
@[simp] theorem State.store_sink (s : State) (a v : Word) : (s.store a v).sink = s.sink := rfl
@[simp] theorem State.store_params (s : State) (a v : Word) : (s.store a v).params = s.params := rfl
@[simp] theorem State.store_reg (s : State) (a v : Word) (q : Reg) : (s.store a v).reg q = s.reg q := rfl

/-! `raiseStop` -/

@[simp] theorem State.raiseStop_regs (s : State) (c : StopCause) : (s.raiseStop c).regs = s.regs := rfl
@[simp] theorem State.raiseStop_pc (s : State) (c : StopCause) : (s.raiseStop c).pc = s.pc := rfl
@[simp] theorem State.raiseStop_cond (s : State) (c : StopCause) : (s.raiseStop c).cond = s.cond := rfl
@[simp] theorem State.raiseStop_run (s : State) (c : StopCause) : (s.raiseStop c).run = RunState.halted := rfl
@[simp] theorem State.raiseStop_stop (s : State) (c : StopCause) : (s.raiseStop c).stop = some ⟨c, s.pc + 0xFFFF#16, field s.ir 12 4, field s.ir 0 8⟩ := rfl
@[simp] theorem State.raiseStop_ir (s : State) (c : StopCause) : (s.raiseStop c).ir = s.ir := rfl
@[simp] theorem State.raiseStop_mem (s : State) (c : StopCause) : (s.raiseStop c).mem = s.mem := rfl
@[simp] theorem State.raiseStop_output (s : State) (c : StopCause) : (s.raiseStop c).output = s.output := rfl
@[simp] theorem State.raiseStop_input (s : State) (c : StopCause) : (s.raiseStop c).input = s.input := rfl
@[simp] theorem State.raiseStop_sink (s : State) (c : StopCause) : (s.raiseStop c).sink = s.sink := rfl
@[simp] theorem State.raiseStop_params (s : State) (c : StopCause) : (s.raiseStop c).params = s.params := rfl
@[simp] theorem State.raiseStop_load (s : State) (c : StopCause) (x : Word) : (s.raiseStop c).load x = s.load x := rfl
@[simp] theorem State.raiseStop_reg (s : State) (c : StopCause) (q : Reg) : (s.raiseStop c).reg q = s.reg q := rfl

/-! `enterTrap` -/

@[simp] theorem State.enterTrap_regs (s : State) : s.enterTrap.regs = s.regs.set .r7 s.pc := rfl
@[simp] theorem State.enterTrap_pc (s : State) : s.enterTrap.pc = s.pc := rfl
@[simp] theorem State.enterTrap_cond (s : State) : s.enterTrap.cond = s.cond := rfl
@[simp] theorem State.enterTrap_run (s : State) : s.enterTrap.run = s.run := rfl
@[simp] theorem State.enterTrap_stop (s : State) : s.enterTrap.stop = s.stop := rfl
@[simp] theorem State.enterTrap_ir (s : State) : s.enterTrap.ir = s.ir := rfl
@[simp] theorem State.enterTrap_mem (s : State) : s.enterTrap.mem = s.mem := rfl
@[simp] theorem State.enterTrap_output (s : State) : s.enterTrap.output = s.output := rfl
@[simp] theorem State.enterTrap_input (s : State) : s.enterTrap.input = s.input := rfl
@[simp] theorem State.enterTrap_sink (s : State) : s.enterTrap.sink = s.sink := rfl
@[simp] theorem State.enterTrap_params (s : State) : s.enterTrap.params = s.params := rfl
@[simp] theorem State.enterTrap_load (s : State) (x : Word) : s.enterTrap.load x = s.load x := rfl

/-! `fetch` -/

@[simp] theorem State.fetch_regs (s : State) : s.fetch.regs = s.regs := rfl
@[simp] theorem State.fetch_pc (s : State) : s.fetch.pc = s.pc + 1#16 := rfl
@[simp] theorem State.fetch_cond (s : State) : s.fetch.cond = s.cond := rfl
@[simp] theorem State.fetch_run (s : State) : s.fetch.run = s.run := rfl
@[simp] theorem State.fetch_stop (s : State) : s.fetch.stop = s.stop := rfl
@[simp] theorem State.fetch_ir (s : State) : s.fetch.ir = s.load s.pc := rfl
@[simp] theorem State.fetch_mem (s : State) : s.fetch.mem = s.mem := rfl
@[simp] theorem State.fetch_output (s : State) : s.fetch.output = s.output := rfl
@[simp] theorem State.fetch_input (s : State) : s.fetch.input = s.input := rfl
@[simp] theorem State.fetch_sink (s : State) : s.fetch.sink = s.sink := rfl
@[simp] theorem State.fetch_params (s : State) : s.fetch.params = s.params := rfl
@[simp] theorem State.fetch_load (s : State) (x : Word) : s.fetch.load x = s.load x := rfl
@[simp] theorem State.fetch_reg (s : State) (q : Reg) : s.fetch.reg q = s.reg q := rfl

end Sys2Proof.Machine
end

