-- ==== Sys2Proof/Laws/Registers.lean ====
section
/-! SUPPORT. Reading a register after a write, and the two directions of the register, opcode and condition codes. -/

namespace Sys2Proof

@[simp] theorem Reg.ofBits_bits (r : Reg) : Reg.ofBits r.bits = r := by cases r <;> rfl

@[simp] theorem Reg.bits_ofBits (b : BitVec 3) : (Reg.ofBits b).bits = b := by revert b; decide

@[simp] theorem Opcode.ofBits_bits (o : Opcode) : Opcode.ofBits o.bits = o := by cases o <;> rfl

@[simp] theorem Opcode.bits_ofBits (b : BitVec 4) : (Opcode.ofBits b).bits = b := by revert b; decide

namespace Machine

@[simp] theorem RegFile.get_set_same (f : RegFile) (r : Reg) (v : Word) : (f.set r v).get r = v := by
  cases r <;> rfl

@[simp] theorem RegFile.get_set_of_ne (f : RegFile) {r q : Reg} (v : Word) (h : q ≠ r) :
    (f.set r v).get q = f.get q := by
  cases r <;> cases q <;> first | rfl | exact absurd rfl h

@[simp] theorem State.setReg_reg_same (s : State) (r : Reg) (v : Word) : (s.setReg r v).reg r = v :=
  RegFile.get_set_same ..

theorem State.setReg_reg_of_ne (s : State) {r q : Reg} (v : Word) (h : q ≠ r) : (s.setReg r v).reg q = s.reg q :=
  RegFile.get_set_of_ne _ v h

theorem State.setReg_reg (s : State) (r q : Reg) (v : Word) :
    (s.setReg r v).reg q = if q = r then v else s.reg q := by
  by_cases h : q = r
  · subst h; simp
  · simp [h, s.setReg_reg_of_ne v h]

theorem State.writeResult_reg (s : State) (r q : Reg) (v : Word) :
    (s.writeResult r v).reg q = if q = r then v else s.reg q :=
  s.setReg_reg r q v

theorem State.enterTrap_reg (s : State) (q : Reg) : s.enterTrap.reg q = if q = .r7 then s.pc else s.reg q :=
  s.setReg_reg .r7 q s.pc

@[simp] theorem State.enterTrap_reg_r7 (s : State) : s.enterTrap.reg .r7 = s.pc := rfl

@[simp] theorem State.enterTrap_reg_r0 (s : State) : s.enterTrap.reg .r0 = s.reg .r0 := rfl

/-- The condition of a value, by its size as a number (R16). -/
theorem Cond.ofValue_eq_conditionOf (v : Word) : Cond.ofValue v = conditionOf v := by
  have hz : (v = 0#16) ↔ v.toNat = 0 := by rw [← BitVec.toNat_inj]; simp
  have hm : v.getLsbD 15 = decide (32768 ≤ v.toNat) := BitVec.msb_eq_decide v
  simp only [Cond.ofValue, conditionOf, hz, hm, decide_eq_true_eq]

/-- BR is taken when the bit of the condition state is set (R90). -/
theorem branchTaken_iff (n z p : Bool) (c : Cond) :
    branchTaken n z p c = true ↔ (n = true ∧ c = .n) ∨ (z = true ∧ c = .z) ∨ (p = true ∧ c = .p) := by
  cases c <;> simp [branchTaken]

/-- BR is taken when its condition bits intersect the one-hot condition state (R15, R90). -/
theorem branchTaken_iff_intersects (n z p : Bool) (c : Cond) :
    branchTaken n z p c = true ↔ (BitVec.ofBool n ++ BitVec.ofBool z ++ BitVec.ofBool p) &&& c.bits ≠ 0#3 := by
  revert n z p; cases c <;> decide

end Machine

end Sys2Proof
end

