-- ==== Sys2Proof/Laws/Decode.lean ====
section
/-! SUPPORT. The formats of 30_encoding.md R53, one lemma each: a word laid out as the format draws it, whatever its unused
bits hold, decodes to the instruction of that format with the fields in place. -/

namespace Sys2Proof

theorem getLsbD_field (w : Word) (lo n i : Nat) (h : i < n) : (field w lo n).getLsbD i = w.getLsbD (lo + i) := by
  simp [field, h]

@[simp] theorem decodeTrap_of_not_service {v : Byte} (h : isServiceVector v = false) : decodeTrap v = .trap v := by
  simp_all [isServiceVector, decodeTrap]

theorem decode_layout_br (n z p : Bool) (off : BitVec 9) :
    decode (0b0000#4 ++ BitVec.ofBool n ++ BitVec.ofBool z ++ BitVec.ofBool p ++ off) = .br n z p off := by
  have hop : field (0b0000#4 ++ BitVec.ofBool n ++ BitVec.ofBool z ++ BitVec.ofBool p ++ off) 12 4 = Opcode.br.bits := by
    apply BitVec.eq_of_getLsbD_eq
    intro i hi
    simp only [field, BitVec.getLsbD_extractLsb', BitVec.getLsbD_append, BitVec.getLsbD_ofBool]
    interval_cases i <;> simp [Opcode.bits]
  have h0 : field (0b0000#4 ++ BitVec.ofBool n ++ BitVec.ofBool z ++ BitVec.ofBool p ++ off) 0 9 = off := by
    apply BitVec.eq_of_getLsbD_eq
    intro i hi
    simp only [field, BitVec.getLsbD_extractLsb', BitVec.getLsbD_append, BitVec.getLsbD_ofBool]
    interval_cases i <;> simp
  have b0 : BitVec.getLsbD (w := 16) (0b0000#4 ++ BitVec.ofBool n ++ BitVec.ofBool z ++ BitVec.ofBool p ++ off) 11 = n := by
    simp only [BitVec.getLsbD_append, BitVec.getLsbD_ofBool]
    simp
  have b1 : BitVec.getLsbD (w := 16) (0b0000#4 ++ BitVec.ofBool n ++ BitVec.ofBool z ++ BitVec.ofBool p ++ off) 10 = z := by
    simp only [BitVec.getLsbD_append, BitVec.getLsbD_ofBool]
    simp
  have b2 : BitVec.getLsbD (w := 16) (0b0000#4 ++ BitVec.ofBool n ++ BitVec.ofBool z ++ BitVec.ofBool p ++ off) 9 = p := by
    simp only [BitVec.getLsbD_append, BitVec.getLsbD_ofBool]
    simp
  simp only [decode, Opcode.ofBits_bits, hop, h0, b0, b1, b2]

theorem decode_layout_addR (dr sr1 sr2 : Reg) (u : BitVec 2) :
    decode (0b0001#4 ++ dr.bits ++ sr1.bits ++ 0b0#1 ++ u ++ sr2.bits) = .addR dr sr1 sr2 := by
  have hop : field (0b0001#4 ++ dr.bits ++ sr1.bits ++ 0b0#1 ++ u ++ sr2.bits) 12 4 = Opcode.add.bits := by
    apply BitVec.eq_of_getLsbD_eq
    intro i hi
    simp only [field, BitVec.getLsbD_extractLsb', BitVec.getLsbD_append]
    interval_cases i <;> simp [Opcode.bits]
  have h0 : field (0b0001#4 ++ dr.bits ++ sr1.bits ++ 0b0#1 ++ u ++ sr2.bits) 9 3 = dr.bits := by
    apply BitVec.eq_of_getLsbD_eq
    intro i hi
    simp only [field, BitVec.getLsbD_extractLsb', BitVec.getLsbD_append]
    interval_cases i <;> simp
  have h1 : field (0b0001#4 ++ dr.bits ++ sr1.bits ++ 0b0#1 ++ u ++ sr2.bits) 6 3 = sr1.bits := by
    apply BitVec.eq_of_getLsbD_eq
    intro i hi
    simp only [field, BitVec.getLsbD_extractLsb', BitVec.getLsbD_append]
    interval_cases i <;> simp
  have h2 : field (0b0001#4 ++ dr.bits ++ sr1.bits ++ 0b0#1 ++ u ++ sr2.bits) 0 3 = sr2.bits := by
    apply BitVec.eq_of_getLsbD_eq
    intro i hi
    simp only [field, BitVec.getLsbD_extractLsb', BitVec.getLsbD_append]
    interval_cases i <;> simp
  have b0 : BitVec.getLsbD (w := 16) (0b0001#4 ++ dr.bits ++ sr1.bits ++ 0b0#1 ++ u ++ sr2.bits) 5 = false := by
    simp only [BitVec.getLsbD_append]
    simp
  simp only [decode, Opcode.ofBits_bits, Reg.ofBits_bits, hop, h0, h1, h2, b0, Bool.false_eq_true, if_false]

theorem decode_layout_addI (dr sr1 : Reg) (imm : BitVec 5) :
    decode (0b0001#4 ++ dr.bits ++ sr1.bits ++ 0b1#1 ++ imm) = .addI dr sr1 imm := by
  have hop : field (0b0001#4 ++ dr.bits ++ sr1.bits ++ 0b1#1 ++ imm) 12 4 = Opcode.add.bits := by
    apply BitVec.eq_of_getLsbD_eq
    intro i hi
    simp only [field, BitVec.getLsbD_extractLsb', BitVec.getLsbD_append]
    interval_cases i <;> simp [Opcode.bits]
  have h0 : field (0b0001#4 ++ dr.bits ++ sr1.bits ++ 0b1#1 ++ imm) 9 3 = dr.bits := by
    apply BitVec.eq_of_getLsbD_eq
    intro i hi
    simp only [field, BitVec.getLsbD_extractLsb', BitVec.getLsbD_append]
    interval_cases i <;> simp
  have h1 : field (0b0001#4 ++ dr.bits ++ sr1.bits ++ 0b1#1 ++ imm) 6 3 = sr1.bits := by
    apply BitVec.eq_of_getLsbD_eq
    intro i hi
    simp only [field, BitVec.getLsbD_extractLsb', BitVec.getLsbD_append]
    interval_cases i <;> simp
  have h2 : field (0b0001#4 ++ dr.bits ++ sr1.bits ++ 0b1#1 ++ imm) 0 5 = imm := by
    apply BitVec.eq_of_getLsbD_eq
    intro i hi
    simp only [field, BitVec.getLsbD_extractLsb', BitVec.getLsbD_append]
    interval_cases i <;> simp
  have b0 : BitVec.getLsbD (w := 16) (0b0001#4 ++ dr.bits ++ sr1.bits ++ 0b1#1 ++ imm) 5 = true := by
    simp only [BitVec.getLsbD_append]
    simp
  simp only [decode, Opcode.ofBits_bits, Reg.ofBits_bits, hop, h0, h1, h2, b0, if_true]

theorem decode_layout_ld (dr : Reg) (off : BitVec 9) :
    decode (0b0010#4 ++ dr.bits ++ off) = .ld dr off := by
  have hop : field (0b0010#4 ++ dr.bits ++ off) 12 4 = Opcode.ld.bits := by
    apply BitVec.eq_of_getLsbD_eq
    intro i hi
    simp only [field, BitVec.getLsbD_extractLsb', BitVec.getLsbD_append]
    interval_cases i <;> simp [Opcode.bits]
  have h0 : field (0b0010#4 ++ dr.bits ++ off) 9 3 = dr.bits := by
    apply BitVec.eq_of_getLsbD_eq
    intro i hi
    simp only [field, BitVec.getLsbD_extractLsb', BitVec.getLsbD_append]
    interval_cases i <;> simp
  have h1 : field (0b0010#4 ++ dr.bits ++ off) 0 9 = off := by
    apply BitVec.eq_of_getLsbD_eq
    intro i hi
    simp only [field, BitVec.getLsbD_extractLsb', BitVec.getLsbD_append]
    interval_cases i <;> simp
  simp only [decode, Opcode.ofBits_bits, Reg.ofBits_bits, hop, h0, h1]

theorem decode_layout_st (sr : Reg) (off : BitVec 9) :
    decode (0b0011#4 ++ sr.bits ++ off) = .st sr off := by
  have hop : field (0b0011#4 ++ sr.bits ++ off) 12 4 = Opcode.st.bits := by
    apply BitVec.eq_of_getLsbD_eq
    intro i hi
    simp only [field, BitVec.getLsbD_extractLsb', BitVec.getLsbD_append]
    interval_cases i <;> simp [Opcode.bits]
  have h0 : field (0b0011#4 ++ sr.bits ++ off) 9 3 = sr.bits := by
    apply BitVec.eq_of_getLsbD_eq
    intro i hi
    simp only [field, BitVec.getLsbD_extractLsb', BitVec.getLsbD_append]
    interval_cases i <;> simp
  have h1 : field (0b0011#4 ++ sr.bits ++ off) 0 9 = off := by
    apply BitVec.eq_of_getLsbD_eq
    intro i hi
    simp only [field, BitVec.getLsbD_extractLsb', BitVec.getLsbD_append]
    interval_cases i <;> simp
  simp only [decode, Opcode.ofBits_bits, Reg.ofBits_bits, hop, h0, h1]

theorem decode_layout_jsr (off : BitVec 11) :
    decode (0b0100#4 ++ 0b1#1 ++ off) = .jsr off := by
  have hop : field (0b0100#4 ++ 0b1#1 ++ off) 12 4 = Opcode.jsr.bits := by
    apply BitVec.eq_of_getLsbD_eq
    intro i hi
    simp only [field, BitVec.getLsbD_extractLsb', BitVec.getLsbD_append]
    interval_cases i <;> simp [Opcode.bits]
  have h0 : field (0b0100#4 ++ 0b1#1 ++ off) 0 11 = off := by
    apply BitVec.eq_of_getLsbD_eq
    intro i hi
    simp only [field, BitVec.getLsbD_extractLsb', BitVec.getLsbD_append]
    interval_cases i <;> simp
  have b0 : BitVec.getLsbD (w := 16) (0b0100#4 ++ 0b1#1 ++ off) 11 = true := by
    simp only [BitVec.getLsbD_append]
    simp
  simp only [decode, Opcode.ofBits_bits, hop, h0, b0, if_true]

theorem decode_layout_jsrr (base : Reg) (u : BitVec 2) (u' : BitVec 6) :
    decode (0b0100#4 ++ 0b0#1 ++ u ++ base.bits ++ u') = .jsrr base := by
  have hop : field (0b0100#4 ++ 0b0#1 ++ u ++ base.bits ++ u') 12 4 = Opcode.jsr.bits := by
    apply BitVec.eq_of_getLsbD_eq
    intro i hi
    simp only [field, BitVec.getLsbD_extractLsb', BitVec.getLsbD_append]
    interval_cases i <;> simp [Opcode.bits]
  have h0 : field (0b0100#4 ++ 0b0#1 ++ u ++ base.bits ++ u') 6 3 = base.bits := by
    apply BitVec.eq_of_getLsbD_eq
    intro i hi
    simp only [field, BitVec.getLsbD_extractLsb', BitVec.getLsbD_append]
    interval_cases i <;> simp
  have b0 : BitVec.getLsbD (w := 16) (0b0100#4 ++ 0b0#1 ++ u ++ base.bits ++ u') 11 = false := by
    simp only [BitVec.getLsbD_append]
    simp
  simp only [decode, Opcode.ofBits_bits, Reg.ofBits_bits, hop, h0, b0, Bool.false_eq_true, if_false]

theorem decode_layout_andR (dr sr1 sr2 : Reg) (u : BitVec 2) :
    decode (0b0101#4 ++ dr.bits ++ sr1.bits ++ 0b0#1 ++ u ++ sr2.bits) = .andR dr sr1 sr2 := by
  have hop : field (0b0101#4 ++ dr.bits ++ sr1.bits ++ 0b0#1 ++ u ++ sr2.bits) 12 4 = Opcode.and.bits := by
    apply BitVec.eq_of_getLsbD_eq
    intro i hi
    simp only [field, BitVec.getLsbD_extractLsb', BitVec.getLsbD_append]
    interval_cases i <;> simp [Opcode.bits]
  have h0 : field (0b0101#4 ++ dr.bits ++ sr1.bits ++ 0b0#1 ++ u ++ sr2.bits) 9 3 = dr.bits := by
    apply BitVec.eq_of_getLsbD_eq
    intro i hi
    simp only [field, BitVec.getLsbD_extractLsb', BitVec.getLsbD_append]
    interval_cases i <;> simp
  have h1 : field (0b0101#4 ++ dr.bits ++ sr1.bits ++ 0b0#1 ++ u ++ sr2.bits) 6 3 = sr1.bits := by
    apply BitVec.eq_of_getLsbD_eq
    intro i hi
    simp only [field, BitVec.getLsbD_extractLsb', BitVec.getLsbD_append]
    interval_cases i <;> simp
  have h2 : field (0b0101#4 ++ dr.bits ++ sr1.bits ++ 0b0#1 ++ u ++ sr2.bits) 0 3 = sr2.bits := by
    apply BitVec.eq_of_getLsbD_eq
    intro i hi
    simp only [field, BitVec.getLsbD_extractLsb', BitVec.getLsbD_append]
    interval_cases i <;> simp
  have b0 : BitVec.getLsbD (w := 16) (0b0101#4 ++ dr.bits ++ sr1.bits ++ 0b0#1 ++ u ++ sr2.bits) 5 = false := by
    simp only [BitVec.getLsbD_append]
    simp
  simp only [decode, Opcode.ofBits_bits, Reg.ofBits_bits, hop, h0, h1, h2, b0, Bool.false_eq_true, if_false]

theorem decode_layout_andI (dr sr1 : Reg) (imm : BitVec 5) :
    decode (0b0101#4 ++ dr.bits ++ sr1.bits ++ 0b1#1 ++ imm) = .andI dr sr1 imm := by
  have hop : field (0b0101#4 ++ dr.bits ++ sr1.bits ++ 0b1#1 ++ imm) 12 4 = Opcode.and.bits := by
    apply BitVec.eq_of_getLsbD_eq
    intro i hi
    simp only [field, BitVec.getLsbD_extractLsb', BitVec.getLsbD_append]
    interval_cases i <;> simp [Opcode.bits]
  have h0 : field (0b0101#4 ++ dr.bits ++ sr1.bits ++ 0b1#1 ++ imm) 9 3 = dr.bits := by
    apply BitVec.eq_of_getLsbD_eq
    intro i hi
    simp only [field, BitVec.getLsbD_extractLsb', BitVec.getLsbD_append]
    interval_cases i <;> simp
  have h1 : field (0b0101#4 ++ dr.bits ++ sr1.bits ++ 0b1#1 ++ imm) 6 3 = sr1.bits := by
    apply BitVec.eq_of_getLsbD_eq
    intro i hi
    simp only [field, BitVec.getLsbD_extractLsb', BitVec.getLsbD_append]
    interval_cases i <;> simp
  have h2 : field (0b0101#4 ++ dr.bits ++ sr1.bits ++ 0b1#1 ++ imm) 0 5 = imm := by
    apply BitVec.eq_of_getLsbD_eq
    intro i hi
    simp only [field, BitVec.getLsbD_extractLsb', BitVec.getLsbD_append]
    interval_cases i <;> simp
  have b0 : BitVec.getLsbD (w := 16) (0b0101#4 ++ dr.bits ++ sr1.bits ++ 0b1#1 ++ imm) 5 = true := by
    simp only [BitVec.getLsbD_append]
    simp
  simp only [decode, Opcode.ofBits_bits, Reg.ofBits_bits, hop, h0, h1, h2, b0, if_true]

theorem decode_layout_ldr (dr base : Reg) (off : BitVec 6) :
    decode (0b0110#4 ++ dr.bits ++ base.bits ++ off) = .ldr dr base off := by
  have hop : field (0b0110#4 ++ dr.bits ++ base.bits ++ off) 12 4 = Opcode.ldr.bits := by
    apply BitVec.eq_of_getLsbD_eq
    intro i hi
    simp only [field, BitVec.getLsbD_extractLsb', BitVec.getLsbD_append]
    interval_cases i <;> simp [Opcode.bits]
  have h0 : field (0b0110#4 ++ dr.bits ++ base.bits ++ off) 9 3 = dr.bits := by
    apply BitVec.eq_of_getLsbD_eq
    intro i hi
    simp only [field, BitVec.getLsbD_extractLsb', BitVec.getLsbD_append]
    interval_cases i <;> simp
  have h1 : field (0b0110#4 ++ dr.bits ++ base.bits ++ off) 6 3 = base.bits := by
    apply BitVec.eq_of_getLsbD_eq
    intro i hi
    simp only [field, BitVec.getLsbD_extractLsb', BitVec.getLsbD_append]
    interval_cases i <;> simp
  have h2 : field (0b0110#4 ++ dr.bits ++ base.bits ++ off) 0 6 = off := by
    apply BitVec.eq_of_getLsbD_eq
    intro i hi
    simp only [field, BitVec.getLsbD_extractLsb', BitVec.getLsbD_append]
    interval_cases i <;> simp
  simp only [decode, Opcode.ofBits_bits, Reg.ofBits_bits, hop, h0, h1, h2]

theorem decode_layout_str (sr base : Reg) (off : BitVec 6) :
    decode (0b0111#4 ++ sr.bits ++ base.bits ++ off) = .str sr base off := by
  have hop : field (0b0111#4 ++ sr.bits ++ base.bits ++ off) 12 4 = Opcode.str.bits := by
    apply BitVec.eq_of_getLsbD_eq
    intro i hi
    simp only [field, BitVec.getLsbD_extractLsb', BitVec.getLsbD_append]
    interval_cases i <;> simp [Opcode.bits]
  have h0 : field (0b0111#4 ++ sr.bits ++ base.bits ++ off) 9 3 = sr.bits := by
    apply BitVec.eq_of_getLsbD_eq
    intro i hi
    simp only [field, BitVec.getLsbD_extractLsb', BitVec.getLsbD_append]
    interval_cases i <;> simp
  have h1 : field (0b0111#4 ++ sr.bits ++ base.bits ++ off) 6 3 = base.bits := by
    apply BitVec.eq_of_getLsbD_eq
    intro i hi
    simp only [field, BitVec.getLsbD_extractLsb', BitVec.getLsbD_append]
    interval_cases i <;> simp
  have h2 : field (0b0111#4 ++ sr.bits ++ base.bits ++ off) 0 6 = off := by
    apply BitVec.eq_of_getLsbD_eq
    intro i hi
    simp only [field, BitVec.getLsbD_extractLsb', BitVec.getLsbD_append]
    interval_cases i <;> simp
  simp only [decode, Opcode.ofBits_bits, Reg.ofBits_bits, hop, h0, h1, h2]

theorem decode_layout_rti (u : BitVec 12) :
    decode (0b1000#4 ++ u) = .rti := by
  have hop : field (0b1000#4 ++ u) 12 4 = Opcode.rti.bits := by
    apply BitVec.eq_of_getLsbD_eq
    intro i hi
    simp only [field, BitVec.getLsbD_extractLsb', BitVec.getLsbD_append]
    interval_cases i <;> simp [Opcode.bits]
  simp only [decode, Opcode.ofBits_bits, hop]

theorem decode_layout_notR (dr sr : Reg) (u : BitVec 6) :
    decode (0b1001#4 ++ dr.bits ++ sr.bits ++ u) = .notR dr sr := by
  have hop : field (0b1001#4 ++ dr.bits ++ sr.bits ++ u) 12 4 = Opcode.not.bits := by
    apply BitVec.eq_of_getLsbD_eq
    intro i hi
    simp only [field, BitVec.getLsbD_extractLsb', BitVec.getLsbD_append]
    interval_cases i <;> simp [Opcode.bits]
  have h0 : field (0b1001#4 ++ dr.bits ++ sr.bits ++ u) 9 3 = dr.bits := by
    apply BitVec.eq_of_getLsbD_eq
    intro i hi
    simp only [field, BitVec.getLsbD_extractLsb', BitVec.getLsbD_append]
    interval_cases i <;> simp
  have h1 : field (0b1001#4 ++ dr.bits ++ sr.bits ++ u) 6 3 = sr.bits := by
    apply BitVec.eq_of_getLsbD_eq
    intro i hi
    simp only [field, BitVec.getLsbD_extractLsb', BitVec.getLsbD_append]
    interval_cases i <;> simp
  simp only [decode, Opcode.ofBits_bits, Reg.ofBits_bits, hop, h0, h1]

theorem decode_layout_ldi (dr : Reg) (off : BitVec 9) :
    decode (0b1010#4 ++ dr.bits ++ off) = .ldi dr off := by
  have hop : field (0b1010#4 ++ dr.bits ++ off) 12 4 = Opcode.ldi.bits := by
    apply BitVec.eq_of_getLsbD_eq
    intro i hi
    simp only [field, BitVec.getLsbD_extractLsb', BitVec.getLsbD_append]
    interval_cases i <;> simp [Opcode.bits]
  have h0 : field (0b1010#4 ++ dr.bits ++ off) 9 3 = dr.bits := by
    apply BitVec.eq_of_getLsbD_eq
    intro i hi
    simp only [field, BitVec.getLsbD_extractLsb', BitVec.getLsbD_append]
    interval_cases i <;> simp
  have h1 : field (0b1010#4 ++ dr.bits ++ off) 0 9 = off := by
    apply BitVec.eq_of_getLsbD_eq
    intro i hi
    simp only [field, BitVec.getLsbD_extractLsb', BitVec.getLsbD_append]
    interval_cases i <;> simp
  simp only [decode, Opcode.ofBits_bits, Reg.ofBits_bits, hop, h0, h1]

theorem decode_layout_sti (sr : Reg) (off : BitVec 9) :
    decode (0b1011#4 ++ sr.bits ++ off) = .sti sr off := by
  have hop : field (0b1011#4 ++ sr.bits ++ off) 12 4 = Opcode.sti.bits := by
    apply BitVec.eq_of_getLsbD_eq
    intro i hi
    simp only [field, BitVec.getLsbD_extractLsb', BitVec.getLsbD_append]
    interval_cases i <;> simp [Opcode.bits]
  have h0 : field (0b1011#4 ++ sr.bits ++ off) 9 3 = sr.bits := by
    apply BitVec.eq_of_getLsbD_eq
    intro i hi
    simp only [field, BitVec.getLsbD_extractLsb', BitVec.getLsbD_append]
    interval_cases i <;> simp
  have h1 : field (0b1011#4 ++ sr.bits ++ off) 0 9 = off := by
    apply BitVec.eq_of_getLsbD_eq
    intro i hi
    simp only [field, BitVec.getLsbD_extractLsb', BitVec.getLsbD_append]
    interval_cases i <;> simp
  simp only [decode, Opcode.ofBits_bits, Reg.ofBits_bits, hop, h0, h1]

theorem decode_layout_jmp (base : Reg) (u : BitVec 3) (u' : BitVec 6) :
    decode (0b1100#4 ++ u ++ base.bits ++ u') = .jmp base := by
  have hop : field (0b1100#4 ++ u ++ base.bits ++ u') 12 4 = Opcode.jmp.bits := by
    apply BitVec.eq_of_getLsbD_eq
    intro i hi
    simp only [field, BitVec.getLsbD_extractLsb', BitVec.getLsbD_append]
    interval_cases i <;> simp [Opcode.bits]
  have h0 : field (0b1100#4 ++ u ++ base.bits ++ u') 6 3 = base.bits := by
    apply BitVec.eq_of_getLsbD_eq
    intro i hi
    simp only [field, BitVec.getLsbD_extractLsb', BitVec.getLsbD_append]
    interval_cases i <;> simp
  simp only [decode, Opcode.ofBits_bits, Reg.ofBits_bits, hop, h0]

theorem decode_layout_res (u : BitVec 12) :
    decode (0b1101#4 ++ u) = .res := by
  have hop : field (0b1101#4 ++ u) 12 4 = Opcode.res.bits := by
    apply BitVec.eq_of_getLsbD_eq
    intro i hi
    simp only [field, BitVec.getLsbD_extractLsb', BitVec.getLsbD_append]
    interval_cases i <;> simp [Opcode.bits]
  simp only [decode, Opcode.ofBits_bits, hop]

theorem decode_layout_lea (dr : Reg) (off : BitVec 9) :
    decode (0b1110#4 ++ dr.bits ++ off) = .lea dr off := by
  have hop : field (0b1110#4 ++ dr.bits ++ off) 12 4 = Opcode.lea.bits := by
    apply BitVec.eq_of_getLsbD_eq
    intro i hi
    simp only [field, BitVec.getLsbD_extractLsb', BitVec.getLsbD_append]
    interval_cases i <;> simp [Opcode.bits]
  have h0 : field (0b1110#4 ++ dr.bits ++ off) 9 3 = dr.bits := by
    apply BitVec.eq_of_getLsbD_eq
    intro i hi
    simp only [field, BitVec.getLsbD_extractLsb', BitVec.getLsbD_append]
    interval_cases i <;> simp
  have h1 : field (0b1110#4 ++ dr.bits ++ off) 0 9 = off := by
    apply BitVec.eq_of_getLsbD_eq
    intro i hi
    simp only [field, BitVec.getLsbD_extractLsb', BitVec.getLsbD_append]
    interval_cases i <;> simp
  simp only [decode, Opcode.ofBits_bits, Reg.ofBits_bits, hop, h0, h1]

theorem decode_layout_trap (u : BitVec 4) (v : Byte) :
    decode (0b1111#4 ++ u ++ v) = decodeTrap v := by
  have hop : field (0b1111#4 ++ u ++ v) 12 4 = Opcode.trap.bits := by
    apply BitVec.eq_of_getLsbD_eq
    intro i hi
    simp only [field, BitVec.getLsbD_extractLsb', BitVec.getLsbD_append]
    interval_cases i <;> simp [Opcode.bits]
  have h0 : field (0b1111#4 ++ u ++ v) 0 8 = v := by
    apply BitVec.eq_of_getLsbD_eq
    intro i hi
    simp only [field, BitVec.getLsbD_extractLsb', BitVec.getLsbD_append]
    interval_cases i <;> simp
  simp only [decode, Opcode.ofBits_bits, hop, h0]

end Sys2Proof
end

