-- ==== Sys2Proof/Laws/Memory.lean ====
section
/-! SUPPORT. The laws of the memory: a read after a write, and that every memory operation keeps the canonical form. -/

namespace Sys2Proof.Machine

theorem Memory.lookup_filter_same (m : Memory) (a : Nat) : Memory.lookup (m.filter (fun c => c.1 != a)) a = 0#16 := by
  induction m with
  | nil => rfl
  | cons c m ih =>
    obtain ⟨k, v⟩ := c
    by_cases h : k = a
    · simpa [List.filter_cons, h] using ih
    · simpa [List.filter_cons, h, Memory.lookup] using ih

theorem Memory.lookup_filter_of_ne (m : Memory) {a b : Nat} (h : b ≠ a) :
    Memory.lookup (m.filter (fun c => c.1 != a)) b = Memory.lookup m b := by
  induction m with
  | nil => rfl
  | cons c m ih =>
    obtain ⟨k, v⟩ := c
    by_cases hk : k = a
    · have hb : ¬k = b := fun e => h (e ▸ hk)
      simpa [List.filter_cons, hk, Memory.lookup, h.symm] using ih
    · by_cases hb : k = b
      · subst hb
        simp [hk, Memory.lookup]
      · simpa [List.filter_cons, hk, Memory.lookup, hb] using ih

theorem Memory.lookup_insert (m : Memory) (a b : Nat) (v : Word) :
    (∀ c ∈ m, c.1 ≠ a) → Memory.lookup (Memory.insert m a v) b = if b = a then v else Memory.lookup m b := by
  intro hne
  induction m with
  | nil => simp [Memory.insert, Memory.lookup, eq_comm]
  | cons c m ih =>
    obtain ⟨k, w⟩ := c
    have hk : k ≠ a := hne (k, w) (by simp)
    have ih := ih fun c hc => hne c (by simp [hc])
    by_cases hlt : k < a
    · by_cases hb : k = b
      · subst hb
        simp [Memory.insert, hlt, Memory.lookup, hk]
      · simp [Memory.insert, hlt, Memory.lookup, hb, ih]
    · by_cases hb : b = a
      · simp [Memory.insert, hlt, Memory.lookup, hb]
      · have : ¬a = b := fun e => hb e.symm
        simp [Memory.insert, hlt, Memory.lookup, hb, this]

/-- A read after a write (R32). It holds of every list, canonical or not. -/
theorem Memory.read_write (m : Memory) (a b v : Word) :
    (m.write a v).read b = if b = a then v else m.read b := by
  have hne : ∀ c ∈ m.filter (fun c => c.1 != a.toNat), c.1 ≠ a.toNat := by simp
  by_cases hb : b = a
  · subst hb
    by_cases hv : v = 0#16
    · simp [Memory.write, Memory.read, hv, Memory.lookup_filter_same]
    · simp [Memory.write, Memory.read, hv, Memory.lookup_insert _ _ _ _ hne]
  · have hb' : b.toNat ≠ a.toNat := fun e => hb (BitVec.eq_of_toNat_eq e)
    by_cases hv : v = 0#16
    · simp [Memory.write, Memory.read, hv, hb, Memory.lookup_filter_of_ne _ hb']
    · simp [Memory.write, Memory.read, hv, hb, hb', Memory.lookup_insert _ _ _ _ hne,
        Memory.lookup_filter_of_ne _ hb']

@[simp] theorem Memory.read_write_same (m : Memory) (a v : Word) : (m.write a v).read a = v := by
  simp [Memory.read_write]

theorem Memory.read_write_of_ne (m : Memory) {a b : Word} (v : Word) (h : b ≠ a) :
    (m.write a v).read b = m.read b := by
  simp [Memory.read_write, h]

@[simp] theorem Memory.read_nil (a : Word) : Memory.read [] a = 0#16 := rfl

theorem State.store_load (s : State) (a b v : Word) : (s.store a v).load b = if b = a then v else s.load b :=
  Memory.read_write ..

@[simp] theorem State.store_load_same (s : State) (a v : Word) : (s.store a v).load a = v :=
  Memory.read_write_same ..

theorem Memory.wf_nil : Memory.wf [] := by simp [Memory.wf]

theorem Memory.mem_insert (m : Memory) (a : Nat) (v : Word) (c : Nat × Word) :
    c ∈ Memory.insert m a v ↔ c = (a, v) ∨ c ∈ m := by
  induction m with
  | nil => simp [Memory.insert]
  | cons d m ih =>
    obtain ⟨k, w⟩ := d
    by_cases h : k < a
    · simp only [Memory.insert, h, if_true, List.mem_cons, ih]; tauto
    · simp [Memory.insert, h]

theorem Memory.insert_rising (m : Memory) (a : Nat) (v : Word) (hne : ∀ c ∈ m, c.1 ≠ a)
    (h : m.Pairwise (fun c d => c.1 < d.1)) : (Memory.insert m a v).Pairwise (fun c d => c.1 < d.1) := by
  induction m with
  | nil => simp [Memory.insert]
  | cons d m ih =>
    obtain ⟨k, w⟩ := d
    rw [List.pairwise_cons] at h
    have hk : k ≠ a := hne (k, w) (by simp)
    by_cases hlt : k < a
    · simp only [Memory.insert, hlt, if_true, List.pairwise_cons]
      refine ⟨fun c hc => ?_, ih (fun c hc => hne c (by simp [hc])) h.2⟩
      rcases (Memory.mem_insert _ _ _ _).1 hc with rfl | hc
      · exact hlt
      · exact h.1 c hc
    · have hgt : a < k := by omega
      simp only [Memory.insert, hlt, if_false, List.pairwise_cons]
      refine ⟨fun c hc => ?_, h⟩
      rcases List.mem_cons.1 hc with rfl | hc
      · exact hgt
      · exact hgt.trans (h.1 c hc)

/-- A write keeps the canonical form. -/
theorem Memory.write_wf (m : Memory) (a v : Word) (h : m.wf) : (m.write a v).wf := by
  have hp := h.1.filter (fun c => c.1 != a.toNat)
  have hall : ∀ c ∈ m.filter (fun c => c.1 != a.toNat), c.1 < Config.numCells ∧ c.2 ≠ 0#16 :=
    fun c hc => h.2 c (List.mem_filter.1 hc).1
  by_cases hv : v = 0#16
  · simp only [Memory.write, hv, if_true]
    exact ⟨hp, hall⟩
  · simp only [Memory.write, hv, if_false]
    refine ⟨Memory.insert_rising _ _ _ (by simp) hp, fun c hc => ?_⟩
    rcases (Memory.mem_insert _ _ _ _).1 hc with rfl | hc
    · exact ⟨a.isLt, hv⟩
    · exact hall c hc

/-- Loading an image keeps the canonical form. -/
theorem Memory.fill_wf (m : Memory) (a : Word) (ws : List Word) (h : m.wf) : (m.fill a ws).wf := by
  induction ws generalizing m a with
  | nil => exact h
  | cons w ws ih => exact ih _ _ (m.write_wf a w h)

theorem State.store_wf (s : State) (a v : Word) (h : s.mem.wf) : (s.store a v).mem.wf :=
  s.mem.write_wf a v h

theorem State.loadImage_wf (s t : State) (origin : Word) (image : List Word) (h : s.mem.wf)
    (ht : s.loadImage origin image = some t) : t.mem.wf := by
  simp only [State.loadImage] at ht
  split at ht
  · cases ht; exact s.mem.fill_wf origin image h
  · cases ht

theorem State.withFetchWord_wf (s : State) (nbits w : Nat) (h : s.mem.wf) : (s.withFetchWord nbits w).mem.wf :=
  s.mem.write_wf _ _ h

theorem State.reset_mem_wf : State.reset.mem.wf := Memory.wf_nil

end Sys2Proof.Machine
end

