-- ==== Sys2Proof/Laws/Streams.lean ====
section
/-! SUPPORT. Everything the requests to the output sink can do, said once: a request, a row of requests, and the two
string scans. Later proofs cite these and never unfold the operations. -/

namespace Sys2Proof.Machine

/-- The state in which the sink has accepted the events `es` since `s`. -/
def State.sent (s : State) (es : List OutEvent) : State :=
  { s with output := s.output ++ es, sink := s.sink.map (· - es.length) }

@[simp] theorem State.sent_regs (s : State) (es : List OutEvent) : (s.sent es).regs = s.regs := rfl
@[simp] theorem State.sent_pc (s : State) (es : List OutEvent) : (s.sent es).pc = s.pc := rfl
@[simp] theorem State.sent_cond (s : State) (es : List OutEvent) : (s.sent es).cond = s.cond := rfl
@[simp] theorem State.sent_run (s : State) (es : List OutEvent) : (s.sent es).run = s.run := rfl
@[simp] theorem State.sent_stop (s : State) (es : List OutEvent) : (s.sent es).stop = s.stop := rfl
@[simp] theorem State.sent_ir (s : State) (es : List OutEvent) : (s.sent es).ir = s.ir := rfl
@[simp] theorem State.sent_mem (s : State) (es : List OutEvent) : (s.sent es).mem = s.mem := rfl
@[simp] theorem State.sent_input (s : State) (es : List OutEvent) : (s.sent es).input = s.input := rfl
@[simp] theorem State.sent_params (s : State) (es : List OutEvent) : (s.sent es).params = s.params := rfl
@[simp] theorem State.sent_output (s : State) (es : List OutEvent) : (s.sent es).output = s.output ++ es := rfl
@[simp] theorem State.sent_sink (s : State) (es : List OutEvent) :
    (s.sent es).sink = s.sink.map (· - es.length) := rfl
@[simp] theorem State.sent_load (s : State) (es : List OutEvent) (a : Word) : (s.sent es).load a = s.load a := rfl
@[simp] theorem State.sent_reg (s : State) (es : List OutEvent) (r : Reg) : (s.sent es).reg r = s.reg r := rfl

@[simp] theorem State.sent_nil (s : State) : s.sent [] = s := by simp [State.sent]

theorem State.sent_sent (s : State) (es fs : List OutEvent) : (s.sent es).sent fs = s.sent (es ++ fs) := by
  simp [State.sent, Function.comp_def, Nat.sub_sub]

theorem State.sends_sent (s : State) (es : List OutEvent) : Sends es s (s.sent es) := ⟨rfl, rfl⟩

theorem State.sinkAccepts_zero (s : State) : s.sinkAccepts 0 := fun _ _ => Nat.zero_le _

theorem State.sinkAccepts_mono {s : State} {m n : Nat} (h : s.sinkAccepts n) (hmn : m ≤ n) : s.sinkAccepts m :=
  fun k hk => hmn.trans (h k hk)

theorem State.sinkAccepts_sent {s : State} {es : List OutEvent} {n : Nat} (h : s.sinkAccepts (es.length + n)) :
    (s.sent es).sinkAccepts n := by
  intro k hk
  obtain ⟨j, hj, rfl⟩ : ∃ j, s.sink = some j ∧ j - es.length = k := by simpa using hk
  have := h j hj
  omega

/-- A request is accepted, or the sink has no acceptance left and the run stops (R183). -/
theorem State.send_eq (s : State) (e : OutEvent) :
    s.send e = if s.sink = some 0 then .stops (s.raiseStop .ioFailure) else .goes (s.sent [e]) := by
  unfold State.send State.sent
  split <;> simp_all

theorem State.send_goes {s : State} (e : OutEvent) (h : s.sinkAccepts 1) : s.send e = .goes (s.sent [e]) := by
  have : s.sink ≠ some 0 := fun h0 => by simpa using h 0 h0
  simp [s.send_eq, this]

theorem State.send_stops {s : State} (e : OutEvent) (h : s.sink = some 0) :
    s.send e = .stops (s.raiseStop .ioFailure) := by
  simp [s.send_eq, h]

/-- A row of requests that the sink accepts. -/
theorem State.sendAll_goes {s : State} {es : List OutEvent} (h : s.sinkAccepts es.length) :
    s.sendAll es = .goes (s.sent es) := by
  induction es generalizing s with
  | nil => simp [State.sendAll]
  | cons e es ih =>
    have h1 : s.sinkAccepts 1 := s.sinkAccepts_mono h (by simp)
    have h2 : (s.sent [e]).sinkAccepts es.length := State.sinkAccepts_sent (by simpa [Nat.add_comm] using h)
    simp [State.sendAll, State.send_goes e h1, ih h2, State.sent_sent]

/-- A row of requests of which the sink accepts only the first `k`. -/
theorem State.sendAll_stops {s : State} {es : List OutEvent} {k : Nat} (hs : s.sink = some k) (hk : k < es.length) :
    s.sendAll es = .stops ((s.sent (es.take k)).raiseStop .ioFailure) := by
  induction es generalizing s k with
  | nil => simp at hk
  | cons e es ih =>
    cases k with
    | zero => simp [State.sendAll, State.send_stops e hs]
    | succ k =>
      have h1 : s.sinkAccepts 1 := fun j hj => by rw [hs] at hj; cases hj; omega
      have h2 : (s.sent [e]).sink = some k := by simp [hs]
      have h3 : k < es.length := by simpa using hk
      simp [State.sendAll, State.send_goes e h1, ih h2 h3, State.sent_sent]

/-- What a flow of requests from `s` can be: some events were accepted and the routine goes on, or some were accepted, the
next one was refused, and the run stopped. -/
def Flow.From (s : State) : Flow → Prop
  | .goes t => ∃ es, t = s.sent es ∧ s.sinkAccepts es.length
  | .stops t => ∃ es, t = (s.sent es).raiseStop .ioFailure ∧ s.sink = some es.length

theorem Flow.From.after_sent {s : State} {es : List OutEvent} {f : Flow} (hs : s.sinkAccepts es.length)
    (h : Flow.From (s.sent es) f) : Flow.From s f := by
  cases f with
  | goes t =>
    obtain ⟨fs, rfl, hf⟩ := h
    refine ⟨es ++ fs, s.sent_sent es fs, fun k hk => ?_⟩
    have h1 := hs k hk
    have h2 := hf (k - es.length) (by simp [hk])
    simp; omega
  | stops t =>
    obtain ⟨fs, rfl, hf⟩ := h
    refine ⟨es ++ fs, by rw [s.sent_sent], ?_⟩
    obtain ⟨k, hk, hkf⟩ : ∃ k, s.sink = some k ∧ k - es.length = fs.length := by simpa using hf
    have := hs k hk
    rw [hk]; simp; omega

theorem State.send_from (s : State) (e : OutEvent) : Flow.From s (s.send e) := by
  rw [s.send_eq]
  split
  · exact ⟨[], by simp, by simpa⟩
  · rename_i h
    refine ⟨[e], rfl, fun k hk => ?_⟩
    cases k with
    | zero => exact absurd hk h
    | succ k => simp

theorem State.sendAll_from (s : State) (es : List OutEvent) : Flow.From s (s.sendAll es) := by
  induction es generalizing s with
  | nil => exact ⟨[], by simp, s.sinkAccepts_zero⟩
  | cons e es ih =>
    have h := s.send_from e
    cases hf : s.send e with
    | goes t =>
      rw [hf] at h
      obtain ⟨fs, rfl, ha⟩ := h
      simpa [State.sendAll, hf] using Flow.From.after_sent ha (ih _)
    | stops t => rw [hf] at h; simpa [State.sendAll, hf] using h

/-- The scan of PUTS, when it ends (R125). -/
theorem putsScan_from {fuel : Nat} {a : Word} {s : State} {f : Flow} (h : putsScan fuel a s = some f) :
    Flow.From s f := by
  induction fuel generalizing a s with
  | zero => simp [putsScan] at h
  | succ fuel ih =>
    simp only [putsScan] at h
    split at h
    · cases h; exact ⟨[], by simp, s.sinkAccepts_zero⟩
    · have hs := s.send_from (.out (lowByte (s.load a)))
      split at h
      · rename_i t ht
        rw [ht] at hs
        obtain ⟨es, rfl, ha⟩ := hs
        exact Flow.From.after_sent ha (ih h)
      · rename_i t ht
        cases h; rwa [ht] at hs

/-- The scan of PUTSP, when it ends (R127). -/
theorem putspScan_from {fuel : Nat} {a : Word} {s : State} {f : Flow} (h : putspScan fuel a s = some f) :
    Flow.From s f := by
  induction fuel generalizing a s with
  | zero => simp [putspScan] at h
  | succ fuel ih =>
    simp only [putspScan] at h
    split at h
    · cases h; exact ⟨[], by simp, s.sinkAccepts_zero⟩
    · have hs := s.send_from (.out (lowByte (s.load a)))
      split at h
      · rename_i t ht
        cases h; rwa [ht] at hs
      · rename_i t ht
        rw [ht] at hs
        obtain ⟨es, rfl, ha⟩ := hs
        split at h
        · cases h; exact ⟨es, rfl, ha⟩
        · have hs' := (s.sent es).send_from (.out (highByte (s.load a)))
          split at h
          · rename_i u hu
            rw [hu] at hs'
            cases h; exact Flow.From.after_sent ha hs'
          · rename_i u hu
            rw [hu] at hs'
            obtain ⟨fs, rfl, hb⟩ := hs'
            exact Flow.From.after_sent ha (Flow.From.after_sent hb (ih h))

end Sys2Proof.Machine
end

