-- ==== Sys2Proof/Laws/Exec.lean ====
section
/-! SUPPORT. What executing each instruction can answer, said once: an equation for each instruction outside the trap
family, an inversion for each trap routine. Later proofs cite these and never unfold a meaning. -/

namespace Sys2Proof.Machine

@[simp] theorem exec_addR (dr sr1 sr2 : Reg) (s : State) :
    exec (.addR dr sr1 sr2) s = .next (s.writeResult dr (s.reg sr1 + s.reg sr2)) := rfl
@[simp] theorem exec_addI (dr sr1 : Reg) (imm : BitVec 5) (s : State) :
    exec (.addI dr sr1 imm) s = .next (s.writeResult dr (s.reg sr1 + sext imm)) := rfl
@[simp] theorem exec_andR (dr sr1 sr2 : Reg) (s : State) :
    exec (.andR dr sr1 sr2) s = .next (s.writeResult dr (s.reg sr1 &&& s.reg sr2)) := rfl
@[simp] theorem exec_andI (dr sr1 : Reg) (imm : BitVec 5) (s : State) :
    exec (.andI dr sr1 imm) s = .next (s.writeResult dr (s.reg sr1 &&& sext imm)) := rfl
@[simp] theorem exec_notR (dr sr : Reg) (s : State) :
    exec (.notR dr sr) s = .next (s.writeResult dr (~~~(s.reg sr))) := rfl
@[simp] theorem exec_br (n z p : Bool) (off : BitVec 9) (s : State) :
    exec (.br n z p off) s =
      .next (if branchTaken n z p s.cond then s.setPc (s.pcRelative off) else s) := by
  show execBr n z p off s = _
  unfold execBr; split <;> rfl
@[simp] theorem exec_jmp (base : Reg) (s : State) : exec (.jmp base) s = .next (s.setPc (s.reg base)) := rfl
@[simp] theorem exec_jsr (off : BitVec 11) (s : State) :
    exec (.jsr off) s = .next ((s.setReg .r7 s.pc).setPc (s.pcRelative11 off)) := rfl
@[simp] theorem exec_jsrr (base : Reg) (s : State) :
    exec (.jsrr base) s = .next ((s.setReg .r7 s.pc).setPc ((s.setReg .r7 s.pc).reg base)) := rfl
@[simp] theorem exec_ld (dr : Reg) (off : BitVec 9) (s : State) :
    exec (.ld dr off) s = .next (s.writeResult dr (s.load (s.pcRelative off))) := rfl
@[simp] theorem exec_ldi (dr : Reg) (off : BitVec 9) (s : State) :
    exec (.ldi dr off) s = .next (s.writeResult dr (s.load (s.indirect off))) := rfl
@[simp] theorem exec_ldr (dr base : Reg) (off : BitVec 6) (s : State) :
    exec (.ldr dr base off) s = .next (s.writeResult dr (s.load (s.baseOffset base off))) := rfl
@[simp] theorem exec_lea (dr : Reg) (off : BitVec 9) (s : State) :
    exec (.lea dr off) s = .next (s.writeResult dr (s.pcRelative off)) := rfl
@[simp] theorem exec_st (sr : Reg) (off : BitVec 9) (s : State) :
    exec (.st sr off) s = .next (s.store (s.pcRelative off) (s.reg sr)) := rfl
@[simp] theorem exec_sti (sr : Reg) (off : BitVec 9) (s : State) :
    exec (.sti sr off) s = .next (s.store (s.indirect off) (s.reg sr)) := rfl
@[simp] theorem exec_str (sr base : Reg) (off : BitVec 6) (s : State) :
    exec (.str sr base off) s = .next (s.store (s.baseOffset base off) (s.reg sr)) := rfl
@[simp] theorem exec_rti (s : State) : exec .rti s = .next (s.raiseStop .reservedOpcode) := rfl
@[simp] theorem exec_res (s : State) : exec .res s = .next (s.raiseStop .reservedOpcode) := rfl

/-- How a routine that only sends ends: all of it was accepted, or a request was refused and the run stopped. -/
def RoutineEnds (s : State) (r : Result) : Prop :=
  (∃ es, r = .next (s.sent es) ∧ s.sinkAccepts es.length) ∨
    ∃ es, r = .next ((s.sent es).raiseStop .ioFailure) ∧ s.sink = some es.length

theorem RoutineEnds.of_flow {s : State} {f : Flow} (h : Flow.From s f) : RoutineEnds s (f.andThen .next) := by
  cases f with
  | goes t => obtain ⟨es, rfl, ha⟩ := h; exact .inl ⟨es, rfl, ha⟩
  | stops t => obtain ⟨es, rfl, ha⟩ := h; exact .inr ⟨es, rfl, ha⟩

theorem RoutineEnds.finishString {s : State} {f : Flow} (h : Flow.From s f) :
    RoutineEnds s (finishString (some f)) := by
  cases f with
  | stops t => obtain ⟨es, rfl, ha⟩ := h; exact .inr ⟨es, rfl, ha⟩
  | goes t =>
    obtain ⟨es, rfl, ha⟩ := h
    exact RoutineEnds.of_flow (Flow.From.after_sent ha ((s.sent es).send_from .flush))

/-- A scan of PUTS runs out of fuel only if the sink has accepted a byte for each cell. -/
theorem putsScan_none {fuel : Nat} {a : Word} {s : State} (h : putsScan fuel a s = none) : s.sinkAccepts fuel := by
  induction fuel generalizing a s with
  | zero => exact s.sinkAccepts_zero
  | succ fuel ih =>
    intro k hk
    simp only [putsScan] at h
    split at h
    · cases h
    · rw [s.send_eq] at h
      split at h
      · rename_i t ht
        split at ht <;> cases ht
        have := ih h (k - 1) (by simp [hk])
        have : k ≠ 0 := by rintro rfl; contradiction
        omega
      · cases h

/-- A scan of PUTSP runs out of fuel only if the sink has accepted a byte for each cell, at the least. -/
theorem putspScan_none {fuel : Nat} {a : Word} {s : State} (h : putspScan fuel a s = none) : s.sinkAccepts fuel := by
  induction fuel generalizing a s with
  | zero => exact s.sinkAccepts_zero
  | succ fuel ih =>
    intro k hk
    have hk0 : k ≠ 0 := by
      rintro rfl
      simp only [putspScan, State.send_stops _ hk] at h
      split at h <;> cases h
    simp only [putspScan, s.send_eq] at h
    split at h
    · cases h
    · split at h
      · cases h
      · rename_i t ht
        split at ht <;> cases ht
        split at h
        · cases h
        · rw [State.send_eq] at h
          split at h
          · cases h
          · rename_i u hu
            split at hu <;> cases hu
            rw [State.sent_sent] at h
            have := ih h (k - 2) (by simp [hk])
            simp [hk] at *
            omega

theorem execOut_cases (s : State) : RoutineEnds s.enterTrap (exec .out s) :=
  RoutineEnds.of_flow (State.send_from _ _)

theorem execPuts_cases (s : State) :
    (exec .puts s = .fault .endlessString ∧ s.sink = none) ∨ RoutineEnds s.enterTrap (exec .puts s) := by
  show (finishString _ = _ ∧ _) ∨ RoutineEnds _ (finishString _)
  cases h : putsScan s.enterTrap.scanFuel (s.enterTrap.reg .r0) s.enterTrap with
  | some f => exact .inr (RoutineEnds.finishString (putsScan_from h))
  | none =>
    refine .inl ⟨rfl, ?_⟩
    have ha := putsScan_none h
    cases hs : s.sink with
    | none => rfl
    | some k =>
      have := ha k (by simpa using hs)
      simp [State.scanFuel, hs] at this
      omega

theorem execPutsp_cases (s : State) :
    (exec .putsp s = .fault .endlessString ∧ s.sink = none) ∨ RoutineEnds s.enterTrap (exec .putsp s) := by
  show (finishString _ = _ ∧ _) ∨ RoutineEnds _ (finishString _)
  cases h : putspScan s.enterTrap.scanFuel (s.enterTrap.reg .r0) s.enterTrap with
  | some f => exact .inr (RoutineEnds.finishString (putspScan_from h))
  | none =>
    refine .inl ⟨rfl, ?_⟩
    have ha := putspScan_none h
    cases hs : s.sink with
    | none => rfl
    | some k =>
      have := ha k (by simpa using hs)
      simp [State.scanFuel, hs] at this
      omega

theorem execGetc_cases (s : State) :
    (s.input.deliver = none ∧ exec .getc s = .fault (.blockedOnInput s.enterTrap)) ∨
      ∃ c cs, s.input.deliver = some (c, cs) ∧
        exec .getc s = .next ({ s.enterTrap with input := cs }.setReg .r0 (zext c)) := by
  have hx : exec .getc s = getcRoutine s.enterTrap := rfl
  cases h : s.input.deliver with
  | none => exact .inl ⟨rfl, by simp [hx, getcRoutine, State.takeByte, h]⟩
  | some d => exact .inr ⟨d.1, d.2, rfl, by simp [hx, getcRoutine, State.takeByte, h]⟩

/-- IN refuses a byte of the prompt, or waits for a byte after the prompt, or takes one and refuses or accepts its
echo. -/
theorem execIn_cases (s : State) :
    (∃ es, exec .inChar s = .next ((s.enterTrap.sent es).raiseStop .ioFailure) ∧ s.sink = some es.length) ∨
    (s.input.deliver = none ∧ s.sinkAccepts s.params.inPrompt.length ∧
      exec .inChar s = .fault (.blockedOnInput (s.enterTrap.sent (s.params.inPrompt.map .out)))) ∨
    ∃ c cs, s.input.deliver = some (c, cs) ∧
      ((∃ es, exec .inChar s = .next (({ s.enterTrap with input := cs }.sent es).raiseStop .ioFailure) ∧
          s.sink = some es.length) ∨
        ∃ es, exec .inChar s = .next (({ s.enterTrap with input := cs }.sent es).setReg .r0 (zext c)) ∧
          s.sinkAccepts es.length) := by
  have hx : exec .inChar s = inRoutine s.enterTrap := rfl
  by_cases hp : s.sinkAccepts s.params.inPrompt.length
  · have hgo := State.sendAll_goes (s := s.enterTrap) (es := s.params.inPrompt.map .out)
      (by simpa [State.sinkAccepts] using hp)
    right
    cases h : s.input.deliver with
    | none =>
      refine .inl ⟨rfl, hp, ?_⟩
      simp [hx, inRoutine, hgo, Flow.andThen, State.takeByte, h]
    | some d =>
      obtain ⟨c, cs⟩ := d
      refine .inr ⟨c, cs, rfl, ?_⟩
      have hf := Flow.From.after_sent (s := { s.enterTrap with input := cs }) (es := s.params.inPrompt.map .out)
        (by simpa [State.sinkAccepts] using hp) (State.send_from _ (.out c))
      have hr : exec .inChar s = (({ s.enterTrap with input := cs }.sent (s.params.inPrompt.map .out)).send (.out c)).andThen
          fun echoed => .next (echoed.setReg .r0 (zext c)) := by
        simp only [hx, inRoutine, State.enterTrap_params, hgo, Flow.andThen, State.takeByte, State.sent_input,
          State.enterTrap_input, h]
        rfl
      rw [hr]
      generalize State.send _ _ = f at hf
      cases f with
      | goes t => obtain ⟨es, rfl, ha⟩ := hf; exact .inr ⟨es, rfl, ha⟩
      | stops t => obtain ⟨es, rfl, ha⟩ := hf; exact .inl ⟨es, rfl, ha⟩
  · obtain ⟨k, hk, hlt⟩ : ∃ k, s.sink = some k ∧ k < s.params.inPrompt.length := by
      simpa [State.sinkAccepts] using hp
    have hst := State.sendAll_stops (s := s.enterTrap) (es := s.params.inPrompt.map .out) (k := k)
      (by simpa using hk) (by simpa using hlt)
    refine .inl ⟨(s.params.inPrompt.map .out).take k, ?_, ?_⟩
    · simp [hx, inRoutine, hst, Flow.andThen]
    · simp [hk]; omega

theorem execHalt_cases (s : State) :
    (exec .halt s =
        .next ((s.enterTrap.sent (s.params.haltNotice.map .out ++ [.flush])).raiseStop .halt) ∧
      s.sinkAccepts (s.params.haltNotice.length + 1)) ∨
    ∃ es, exec .halt s = .next ((s.enterTrap.sent es).raiseStop .ioFailure) ∧ s.sink = some es.length := by
  have hx : exec .halt s = haltRoutine s.enterTrap := rfl
  by_cases hp : s.sinkAccepts (s.params.haltNotice.length + 1)
  · have hgo := State.sendAll_goes (s := s.enterTrap) (es := s.params.haltNotice.map .out ++ [.flush])
      (by simpa [State.sinkAccepts] using hp)
    exact .inl ⟨by simp [hx, haltRoutine, hgo, Flow.andThen], hp⟩
  · obtain ⟨k, hk, hlt⟩ : ∃ k, s.sink = some k ∧ k < s.params.haltNotice.length + 1 := by
      simpa [State.sinkAccepts] using hp
    have hst := State.sendAll_stops (s := s.enterTrap) (es := s.params.haltNotice.map .out ++ [.flush]) (k := k)
      (by simpa using hk) (by simpa using hlt)
    refine .inr ⟨(s.params.haltNotice.map OutEvent.out ++ [OutEvent.flush]).take k, ?_, ?_⟩
    · simp [hx, haltRoutine, hst, Flow.andThen]
    · simp [hk]; omega

theorem exec_trap_of_not_service {v : Byte} (h : isServiceVector v = false) (s : State) :
    exec (.trap v) s = .next (s.enterTrap.raiseStop .unknownTrap) := by
  show trapDispatch v s.enterTrap = _
  simp_all [isServiceVector, trapDispatch, unknownTrap]

/-- A TRAP dispatches as its decoding does: to the service its vector names, or to the stop (R121). -/
theorem exec_trap_eq (v : Byte) (s : State) (h : isServiceVector v = true) :
    exec (.trap v) s = exec (decodeTrap v) s := by
  show trapDispatch v s.enterTrap = _
  unfold trapDispatch decodeTrap
  split_ifs <;> first | rfl | skip
  simp_all [isServiceVector]

end Sys2Proof.Machine
end

