-- ==== Sys2Proof/Laws/PerInstr.lean ====
section
/-! SUPPORT. Statements for all instructions, made per instruction. EncodedOpcode: bits 15:12 of an instruction's word are
its opcode's number (30_encoding.md R51). -/

namespace Sys2Proof.Laws

/-- Bits 15:12 of an instruction's word are its opcode's number (R51). -/
def EncodedOpcode.Statement (i : Instr) : Prop :=
  field (encode i) 12 4 = i.opcode.bits

theorem EncodedOpcode.br (n : Bool) (z : Bool) (p : Bool) (off : BitVec 9) : EncodedOpcode.Statement (.br n z p off) := by
  apply BitVec.eq_of_getLsbD_eq
  intro i hi
  simp only [encode, field, BitVec.getLsbD_extractLsb', BitVec.getLsbD_append, BitVec.getLsbD_ofBool]
  interval_cases i <;> simp [Instr.opcode, Opcode.bits]

theorem EncodedOpcode.addR (dr : Reg) (sr1 : Reg) (sr2 : Reg) : EncodedOpcode.Statement (.addR dr sr1 sr2) := by
  apply BitVec.eq_of_getLsbD_eq
  intro i hi
  simp only [encode, field, BitVec.getLsbD_extractLsb', BitVec.getLsbD_append]
  interval_cases i <;> simp [Instr.opcode, Opcode.bits]

theorem EncodedOpcode.addI (dr : Reg) (sr1 : Reg) (imm : BitVec 5) : EncodedOpcode.Statement (.addI dr sr1 imm) := by
  apply BitVec.eq_of_getLsbD_eq
  intro i hi
  simp only [encode, field, BitVec.getLsbD_extractLsb', BitVec.getLsbD_append]
  interval_cases i <;> simp [Instr.opcode, Opcode.bits]

theorem EncodedOpcode.ld (dr : Reg) (off : BitVec 9) : EncodedOpcode.Statement (.ld dr off) := by
  apply BitVec.eq_of_getLsbD_eq
  intro i hi
  simp only [encode, field, BitVec.getLsbD_extractLsb', BitVec.getLsbD_append]
  interval_cases i <;> simp [Instr.opcode, Opcode.bits]

theorem EncodedOpcode.st (sr : Reg) (off : BitVec 9) : EncodedOpcode.Statement (.st sr off) := by
  apply BitVec.eq_of_getLsbD_eq
  intro i hi
  simp only [encode, field, BitVec.getLsbD_extractLsb', BitVec.getLsbD_append]
  interval_cases i <;> simp [Instr.opcode, Opcode.bits]

theorem EncodedOpcode.jsr (off : BitVec 11) : EncodedOpcode.Statement (.jsr off) := by
  apply BitVec.eq_of_getLsbD_eq
  intro i hi
  simp only [encode, field, BitVec.getLsbD_extractLsb', BitVec.getLsbD_append]
  interval_cases i <;> simp [Instr.opcode, Opcode.bits]

theorem EncodedOpcode.jsrr (base : Reg) : EncodedOpcode.Statement (.jsrr base) := by
  apply BitVec.eq_of_getLsbD_eq
  intro i hi
  simp only [encode, field, BitVec.getLsbD_extractLsb', BitVec.getLsbD_append]
  interval_cases i <;> simp [Instr.opcode, Opcode.bits]

theorem EncodedOpcode.andR (dr : Reg) (sr1 : Reg) (sr2 : Reg) : EncodedOpcode.Statement (.andR dr sr1 sr2) := by
  apply BitVec.eq_of_getLsbD_eq
  intro i hi
  simp only [encode, field, BitVec.getLsbD_extractLsb', BitVec.getLsbD_append]
  interval_cases i <;> simp [Instr.opcode, Opcode.bits]

theorem EncodedOpcode.andI (dr : Reg) (sr1 : Reg) (imm : BitVec 5) : EncodedOpcode.Statement (.andI dr sr1 imm) := by
  apply BitVec.eq_of_getLsbD_eq
  intro i hi
  simp only [encode, field, BitVec.getLsbD_extractLsb', BitVec.getLsbD_append]
  interval_cases i <;> simp [Instr.opcode, Opcode.bits]

theorem EncodedOpcode.ldr (dr : Reg) (base : Reg) (off : BitVec 6) : EncodedOpcode.Statement (.ldr dr base off) := by
  apply BitVec.eq_of_getLsbD_eq
  intro i hi
  simp only [encode, field, BitVec.getLsbD_extractLsb', BitVec.getLsbD_append]
  interval_cases i <;> simp [Instr.opcode, Opcode.bits]

theorem EncodedOpcode.str (sr : Reg) (base : Reg) (off : BitVec 6) : EncodedOpcode.Statement (.str sr base off) := by
  apply BitVec.eq_of_getLsbD_eq
  intro i hi
  simp only [encode, field, BitVec.getLsbD_extractLsb', BitVec.getLsbD_append]
  interval_cases i <;> simp [Instr.opcode, Opcode.bits]

theorem EncodedOpcode.rti : EncodedOpcode.Statement .rti := by
  unfold EncodedOpcode.Statement; decide

theorem EncodedOpcode.notR (dr : Reg) (sr : Reg) : EncodedOpcode.Statement (.notR dr sr) := by
  apply BitVec.eq_of_getLsbD_eq
  intro i hi
  simp only [encode, field, BitVec.getLsbD_extractLsb', BitVec.getLsbD_append]
  interval_cases i <;> simp [Instr.opcode, Opcode.bits]

theorem EncodedOpcode.ldi (dr : Reg) (off : BitVec 9) : EncodedOpcode.Statement (.ldi dr off) := by
  apply BitVec.eq_of_getLsbD_eq
  intro i hi
  simp only [encode, field, BitVec.getLsbD_extractLsb', BitVec.getLsbD_append]
  interval_cases i <;> simp [Instr.opcode, Opcode.bits]

theorem EncodedOpcode.sti (sr : Reg) (off : BitVec 9) : EncodedOpcode.Statement (.sti sr off) := by
  apply BitVec.eq_of_getLsbD_eq
  intro i hi
  simp only [encode, field, BitVec.getLsbD_extractLsb', BitVec.getLsbD_append]
  interval_cases i <;> simp [Instr.opcode, Opcode.bits]

theorem EncodedOpcode.jmp (base : Reg) : EncodedOpcode.Statement (.jmp base) := by
  apply BitVec.eq_of_getLsbD_eq
  intro i hi
  simp only [encode, field, BitVec.getLsbD_extractLsb', BitVec.getLsbD_append]
  interval_cases i <;> simp [Instr.opcode, Opcode.bits]

theorem EncodedOpcode.res : EncodedOpcode.Statement .res := by
  unfold EncodedOpcode.Statement; decide

theorem EncodedOpcode.lea (dr : Reg) (off : BitVec 9) : EncodedOpcode.Statement (.lea dr off) := by
  apply BitVec.eq_of_getLsbD_eq
  intro i hi
  simp only [encode, field, BitVec.getLsbD_extractLsb', BitVec.getLsbD_append]
  interval_cases i <;> simp [Instr.opcode, Opcode.bits]

theorem EncodedOpcode.trap (v : Byte) : EncodedOpcode.Statement (.trap v) := by
  apply BitVec.eq_of_getLsbD_eq
  intro i hi
  simp only [encode, encodeTrap, field, BitVec.getLsbD_extractLsb', BitVec.getLsbD_append]
  interval_cases i <;> simp [Instr.opcode, Opcode.bits]

theorem EncodedOpcode.getc : EncodedOpcode.Statement .getc := by
  unfold EncodedOpcode.Statement; decide

theorem EncodedOpcode.out : EncodedOpcode.Statement .out := by
  unfold EncodedOpcode.Statement; decide

theorem EncodedOpcode.puts : EncodedOpcode.Statement .puts := by
  unfold EncodedOpcode.Statement; decide

theorem EncodedOpcode.inChar : EncodedOpcode.Statement .inChar := by
  unfold EncodedOpcode.Statement; decide

theorem EncodedOpcode.putsp : EncodedOpcode.Statement .putsp := by
  unfold EncodedOpcode.Statement; decide

theorem EncodedOpcode.halt : EncodedOpcode.Statement .halt := by
  unfold EncodedOpcode.Statement; decide

end Sys2Proof.Laws
end

