-- ==== Sys2Proof/Laws/Words.lean ====
section
/-! SUPPORT. Fields and bytes of a word, and what the decoding of a word says of its opcode and vector fields. -/

namespace Sys2Proof

/-- A field whose value is known, one bit at a time. -/
theorem getLsbD_of_field {w : Word} {lo n : Nat} {b : BitVec n} (h : field w lo n = b) {i : Nat} (hi : i < n) :
    w.getLsbD (lo + i) = b.getLsbD i := by
  rw [← h, getLsbD_field _ _ _ _ hi]

theorem field_op_of_append (x : BitVec 4) (y : BitVec 12) : field (x ++ y) 12 4 = x := by
  apply BitVec.eq_of_getLsbD_eq
  intro i hi
  simp only [field, BitVec.getLsbD_extractLsb', BitVec.getLsbD_append]
  interval_cases i <;> simp

theorem field_vector_of_append (x : BitVec 4) (y : BitVec 12) : field (x ++ y) 0 8 = y.setWidth 8 := by
  apply BitVec.eq_of_getLsbD_eq
  intro i hi
  simp only [field, BitVec.getLsbD_extractLsb', BitVec.getLsbD_append]
  interval_cases i <;> simp

theorem field_op_of_trap (x u : BitVec 4) (v : Byte) : field (x ++ u ++ v) 12 4 = x := by
  apply BitVec.eq_of_getLsbD_eq
  intro i hi
  simp only [field, BitVec.getLsbD_extractLsb', BitVec.getLsbD_append]
  interval_cases i <;> simp

theorem field_vector_of_trap (x u : BitVec 4) (v : Byte) : field (x ++ u ++ v) 0 8 = v := by
  apply BitVec.eq_of_getLsbD_eq
  intro i hi
  simp only [field, BitVec.getLsbD_extractLsb', BitVec.getLsbD_append]
  interval_cases i <;> simp

/-- The address an instruction was fetched from, from the incremented `pc` (R170). -/
theorem pc_back (a : Word) : a + 1#16 + 0xFFFF#16 = a := by
  rw [BitVec.add_assoc]; simp

theorem decode_wf (w : Word) : (decode w).wf = true := by
  unfold decode
  split <;> try split
  all_goals try rfl
  unfold decodeTrap
  split_ifs <;> simp_all [Instr.wf, isServiceVector]

theorem decode_opcode (w : Word) : (decode w).opcode = Opcode.ofBits (field w 12 4) := by
  unfold decode
  split <;> rename_i h <;> rw [h] <;> try split
  all_goals try rfl
  unfold decodeTrap; split_ifs <;> rfl

theorem field_op_of_decode {w : Word} {o : Opcode} (h : (decode w).opcode = o) : field w 12 4 = o.bits := by
  rw [← h, decode_opcode, Opcode.bits_ofBits]

theorem decode_of_trap {w : Word} (h : (decode w).opcode = .trap) : decode w = decodeTrap (field w 0 8) := by
  rw [decode_opcode] at h; unfold decode; rw [h]

theorem encode_decodeTrap (v : Byte) : encode (decodeTrap v) = encodeTrap v := by
  unfold decodeTrap; split_ifs <;> simp_all [encode]

theorem decodeTrap_form (v : Byte) : (decodeTrap v).form = .trap := by
  unfold decodeTrap; split_ifs <;> rfl

namespace Machine

theorem zext_eq_append (c : Byte) : zext c = 0x00#8 ++ c := by
  apply BitVec.eq_of_getLsbD_eq
  intro i hi
  simp only [zext, BitVec.getLsbD_append, BitVec.getLsbD_setWidth]
  interval_cases i <;> simp

theorem lowByte_eq (w : Word) : lowByte w = w.setWidth 8 := by
  apply BitVec.eq_of_toNat_eq; simp [lowByte, field]

theorem highByte_eq (w : Word) : highByte w = (w >>> 8).setWidth 8 := by
  apply BitVec.eq_of_toNat_eq; simp [highByte, field]

end Machine

end Sys2Proof
end

