-- ==== Sys2Proof/Laws/Step.lean ====
section
/-! SUPPORT. What executing any instruction can do, and what a step can do, said once: the answers without a next state,
the facts of every next state, and the equations of a step. Also the laws of the loader. -/

namespace Sys2Proof.Machine

theorem writesResult_spec (s : State) (dr : Reg) (v : Word) : WritesResult dr v s (s.writeResult dr v) := by
  refine ⟨by simp [State.writeResult_reg], Cond.ofValue_eq_conditionOf v, fun r hr => ?_, rfl, fun _ => rfl,
    ⟨rfl, rfl, rfl⟩, rfl, rfl, rfl, rfl⟩
  simp only [List.mem_singleton] at hr
  simp [State.writeResult_reg, hr]

theorem writesCell_spec (s : State) (a v : Word) : WritesCell a v s (s.store a v) :=
  ⟨by simp, fun b hb => by simp [State.store_load, hb], fun _ _ => rfl, rfl, rfl, ⟨rfl, rfl, rfl⟩, rfl, rfl, rfl, rfl⟩

theorem entersTrap_spec (s : State) : EntersTrap s s.enterTrap := by
  refine ⟨rfl, fun r hr => ?_, rfl, rfl, fun _ => rfl, rfl, rfl⟩
  simp only [List.mem_cons, List.not_mem_nil, or_false, not_or] at hr
  simp [State.enterTrap_reg, hr]

/-- A well-formed instruction faults only by waiting for input that will not come, or in a string without end. -/
theorem exec_fault_cases {i : Instr} {s : State} {f : Fault} (hw : i.wf = true) (h : exec i s = .fault f) :
    (∃ mid, f = .blockedOnInput mid ∧ s.input.deliver = none ∧ (i = .getc ∨ i = .inChar)) ∨
      (f = .endlessString ∧ s.sink = none ∧ (i = .puts ∨ i = .putsp)) := by
  cases i with
  | trap v => rw [exec_trap_of_not_service (by simpa [Instr.wf] using hw)] at h; cases h
  | getc =>
    rcases execGetc_cases s with ⟨hi, hx⟩ | ⟨c, cs, _, hx⟩
    · rw [hx] at h; cases h; exact .inl ⟨_, rfl, hi, .inl rfl⟩
    · rw [hx] at h; cases h
  | inChar =>
    rcases execIn_cases s with ⟨es, hx, _⟩ | ⟨hi, _, hx⟩ | ⟨c, cs, _, ⟨es, hx, _⟩ | ⟨es, hx, _⟩⟩
    all_goals rw [hx] at h; cases h
    exact .inl ⟨_, rfl, hi, .inr rfl⟩
  | out =>
    rcases execOut_cases s with ⟨es, hx, _⟩ | ⟨es, hx, _⟩
    all_goals rw [hx] at h; cases h
  | puts =>
    rcases execPuts_cases s with ⟨hx, hs⟩ | ⟨es, hx, _⟩ | ⟨es, hx, _⟩
    all_goals rw [hx] at h; cases h
    exact .inr ⟨rfl, hs, .inl rfl⟩
  | putsp =>
    rcases execPutsp_cases s with ⟨hx, hs⟩ | ⟨es, hx, _⟩ | ⟨es, hx, _⟩
    all_goals rw [hx] at h; cases h
    exact .inr ⟨rfl, hs, .inr rfl⟩
  | halt =>
    rcases execHalt_cases s with ⟨hx, hs⟩ | ⟨es, hx, _⟩
    all_goals rw [hx] at h; cases h
  | _ => simp at h

theorem exec_not_refused {i : Instr} {s : State} (hw : i.wf = true) (q : Refusal) : exec i s ≠ .refused q := by
  intro h
  cases i with
  | trap v => rw [exec_trap_of_not_service (by simpa [Instr.wf] using hw)] at h; cases h
  | getc =>
    rcases execGetc_cases s with ⟨hi, hx⟩ | ⟨c, cs, _, hx⟩
    all_goals rw [hx] at h; cases h
  | inChar =>
    rcases execIn_cases s with ⟨es, hx, _⟩ | ⟨hi, _, hx⟩ | ⟨c, cs, _, ⟨es, hx, _⟩ | ⟨es, hx, _⟩⟩
    all_goals rw [hx] at h; cases h
  | out =>
    rcases execOut_cases s with ⟨es, hx, _⟩ | ⟨es, hx, _⟩
    all_goals rw [hx] at h; cases h
  | puts =>
    rcases execPuts_cases s with ⟨hx, hs⟩ | ⟨es, hx, _⟩ | ⟨es, hx, _⟩
    all_goals rw [hx] at h; cases h
  | putsp =>
    rcases execPutsp_cases s with ⟨hx, hs⟩ | ⟨es, hx, _⟩ | ⟨es, hx, _⟩
    all_goals rw [hx] at h; cases h
  | halt =>
    rcases execHalt_cases s with ⟨hx, hs⟩ | ⟨es, hx, _⟩
    all_goals rw [hx] at h; cases h
  | _ => simp at h

/-- What is true of every next state `t` of executing `i` in `s`. -/
structure ExecFacts (i : Instr) (s t : State) : Prop where
  ir : t.ir = s.ir
  params : t.params = s.params
  mem : t.mem = match storeTarget i s with | some (a, v) => s.mem.write a v | none => s.mem
  cond : t.cond = match flagDest i with | some dr => conditionOf (t.reg dr) | none => s.cond
  pc : loadsPc i s = false → t.pc = s.pc
  regs : SameRegsExcept (registersWritten i) s t
  stop : (t.run = s.run ∧ t.stop = s.stop) ∨ ∃ c ∈ stopCauses i, StopsWith c s t
  sends : ∃ es, Sends es s t ∧ s.sinkAccepts es.length
  input : t.input = s.input ∨ (∃ c, s.input.deliver = some (c, t.input)) ∧ (i = .getc ∨ i = .inChar)

theorem sends_nothing {s t : State} (ho : t.output = s.output) (hs : t.sink = s.sink) :
    ∃ es, Sends es s t ∧ s.sinkAccepts es.length :=
  ⟨[], ⟨by simp [ho], by simp [hs]⟩, s.sinkAccepts_zero⟩

theorem State.sinkAccepts_of_eq {s : State} {n : Nat} (h : s.sink = some n) : s.sinkAccepts n := by
  intro k hk; rw [h] at hk; cases hk; exact le_rfl

theorem State.enterTrap_except (s : State) {rs : List Reg} (h : .r7 ∈ rs) : SameRegsExcept rs s s.enterTrap := by
  intro r hr
  rw [State.enterTrap_reg, if_neg]; rintro rfl; exact hr h

theorem State.setReg_except (s : State) (r : Reg) (v : Word) {rs : List Reg} (h : r ∈ rs) :
    SameRegsExcept rs s (s.setReg r v) :=
  fun _ hq => s.setReg_reg_of_ne v (by rintro rfl; exact hq h)

theorem ExecFacts.of_writeResult {i : Instr} {dr : Reg} (s : State) (v : Word) (hm : storeTarget i s = none)
    (hf : flagDest i = some dr) (hr : registersWritten i = [dr]) : ExecFacts i s (s.writeResult dr v) where
  ir := rfl
  params := rfl
  mem := by rw [hm]; rfl
  cond := by rw [hf]; simp [State.writeResult_reg, Cond.ofValue_eq_conditionOf]
  pc := fun _ => rfl
  regs := hr ▸ (writesResult_spec s dr v).2.2.1
  stop := .inl ⟨rfl, rfl⟩
  sends := sends_nothing rfl rfl
  input := .inl rfl

theorem ExecFacts.of_store {i : Instr} (s : State) {a v : Word} (hm : storeTarget i s = some (a, v))
    (hf : flagDest i = none) : ExecFacts i s (s.store a v) where
  ir := rfl
  params := rfl
  mem := by rw [hm]; rfl
  cond := by rw [hf]; rfl
  pc := fun _ => rfl
  regs := fun _ _ => rfl
  stop := .inl ⟨rfl, rfl⟩
  sends := sends_nothing rfl rfl
  input := .inl rfl

/-- A routine that only sends, from its entry. -/
theorem ExecFacts.of_routineEnds {i : Instr} {s t : State} {r : Result} (h : RoutineEnds s.enterTrap r)
    (ht : r = .next t) (hm : storeTarget i s = none) (hf : flagDest i = none) (hr : .r7 ∈ registersWritten i)
    (hc : .ioFailure ∈ stopCauses i) : ExecFacts i s t := by
  rcases h with ⟨es, hx, ha⟩ | ⟨es, hx, ha⟩ <;> rw [hx] at ht <;> cases ht
  · exact ⟨rfl, rfl, by rw [hm]; rfl, by rw [hf]; rfl, fun _ => rfl, s.enterTrap_except hr, .inl ⟨rfl, rfl⟩,
      ⟨es, ⟨rfl, rfl⟩, ha⟩, .inl rfl⟩
  · exact ⟨rfl, rfl, by rw [hm]; rfl, by rw [hf]; rfl, fun _ => rfl, s.enterTrap_except hr,
      .inr ⟨_, hc, rfl, rfl⟩, ⟨es, ⟨rfl, rfl⟩, State.sinkAccepts_of_eq ha⟩, .inl rfl⟩

/-- What executing a well-formed instruction can do when it answers a next state. -/
theorem exec_facts {i : Instr} {s t : State} (hw : i.wf = true) (h : exec i s = .next t) : ExecFacts i s t := by
  cases i with
  | addR | addI | andR | andI | notR | ld | ldi | ldr | lea =>
    simp at h; subst h; exact ExecFacts.of_writeResult _ _ rfl rfl rfl
  | st | sti | str => simp at h; subst h; exact ExecFacts.of_store _ rfl rfl
  | br n z p off =>
    simp at h; subst h
    refine ⟨by split <;> rfl, by split <;> rfl, by split <;> rfl, by split <;> rfl, fun h => ?_,
      fun r hr => by split <;> rfl, .inl ⟨by split <;> rfl, by split <;> rfl⟩,
      sends_nothing (by split <;> rfl) (by split <;> rfl), .inl (by split <;> rfl)⟩
    simp only [loadsPc] at h; simp [h]
  | jmp =>
    simp at h; subst h
    exact ⟨rfl, rfl, rfl, rfl, fun h => by simp [loadsPc] at h, fun _ _ => rfl, .inl ⟨rfl, rfl⟩,
      sends_nothing rfl rfl, .inl rfl⟩
  | jsr | jsrr =>
    simp at h; subst h
    exact ⟨rfl, rfl, rfl, rfl, fun h => by simp [loadsPc] at h,
      s.setReg_except _ _ (by simp [registersWritten]), .inl ⟨rfl, rfl⟩, sends_nothing rfl rfl, .inl rfl⟩
  | rti | res =>
    simp at h; subst h
    exact ⟨rfl, rfl, rfl, rfl, fun _ => rfl, fun _ _ => rfl, .inr ⟨_, by simp [stopCauses], rfl, rfl⟩,
      sends_nothing rfl rfl, .inl rfl⟩
  | trap v =>
    rw [exec_trap_of_not_service (by simpa [Instr.wf] using hw)] at h; cases h
    exact ⟨rfl, rfl, rfl, rfl, fun _ => rfl, s.enterTrap_except (by simp [registersWritten]),
      .inr ⟨_, by simp [stopCauses], rfl, rfl⟩, sends_nothing rfl rfl, .inl rfl⟩
  | getc =>
    rcases execGetc_cases s with ⟨_, hx⟩ | ⟨c, cs, hi, hx⟩
    all_goals rw [hx] at h; cases h
    refine ⟨rfl, rfl, rfl, rfl, fun _ => rfl, fun r hr => ?_, .inl ⟨rfl, rfl⟩, sends_nothing rfl rfl,
      .inr ⟨⟨c, hi⟩, .inl rfl⟩⟩
    rw [State.setReg_reg_of_ne _ _ (by rintro rfl; exact hr (by simp [registersWritten]))]
    exact s.enterTrap_except (rs := [.r7, .r0]) (by simp) r hr
  | inChar =>
    rcases execIn_cases s with ⟨es, hx, ha⟩ | ⟨_, _, hx⟩ | ⟨c, cs, hi, ⟨es, hx, ha⟩ | ⟨es, hx, ha⟩⟩
    all_goals rw [hx] at h; cases h
    · exact ⟨rfl, rfl, rfl, rfl, fun _ => rfl, s.enterTrap_except (by simp [registersWritten]),
        .inr ⟨_, by simp [stopCauses], rfl, rfl⟩, ⟨es, ⟨rfl, rfl⟩, State.sinkAccepts_of_eq ha⟩, .inl rfl⟩
    · exact ⟨rfl, rfl, rfl, rfl, fun _ => rfl, s.enterTrap_except (by simp [registersWritten]),
        .inr ⟨_, by simp [stopCauses], rfl, rfl⟩, ⟨es, ⟨rfl, rfl⟩, State.sinkAccepts_of_eq ha⟩,
        .inr ⟨⟨c, hi⟩, .inr rfl⟩⟩
    · refine ⟨rfl, rfl, rfl, rfl, fun _ => rfl, fun r hr => ?_, .inl ⟨rfl, rfl⟩, ⟨es, ⟨rfl, rfl⟩, ha⟩,
        .inr ⟨⟨c, hi⟩, .inr rfl⟩⟩
      rw [State.setReg_reg_of_ne _ _ (by rintro rfl; exact hr (by simp [registersWritten]))]
      exact s.enterTrap_except (rs := [.r7, .r0]) (by simp) r hr
  | out =>
    exact ExecFacts.of_routineEnds (execOut_cases s) h rfl rfl (by simp [registersWritten]) (by simp [stopCauses])
  | puts =>
    rcases execPuts_cases s with ⟨hx, _⟩ | hx
    · rw [hx] at h; cases h
    · exact ExecFacts.of_routineEnds hx h rfl rfl (by simp [registersWritten]) (by simp [stopCauses])
  | putsp =>
    rcases execPutsp_cases s with ⟨hx, _⟩ | hx
    · rw [hx] at h; cases h
    · exact ExecFacts.of_routineEnds hx h rfl rfl (by simp [registersWritten]) (by simp [stopCauses])
  | halt =>
    rcases execHalt_cases s with ⟨hx, ha⟩ | ⟨es, hx, ha⟩
    all_goals rw [hx] at h; cases h
    · exact ⟨rfl, rfl, rfl, rfl, fun _ => rfl, s.enterTrap_except (by simp [registersWritten]),
        .inr ⟨_, by simp [stopCauses], rfl, rfl⟩, ⟨_, ⟨rfl, rfl⟩, by simpa using ha⟩, .inl rfl⟩
    · exact ⟨rfl, rfl, rfl, rfl, fun _ => rfl, s.enterTrap_except (by simp [registersWritten]),
        .inr ⟨_, by simp [stopCauses], rfl, rfl⟩, ⟨es, ⟨rfl, rfl⟩, State.sinkAccepts_of_eq ha⟩, .inl rfl⟩

/-- Every instruction, well formed or not, executes as a well-formed one does. -/
theorem exec_as_wf (i : Instr) (s : State) :
    ∃ j : Instr, j.wf = true ∧ exec i s = exec j s ∧ storeTarget j s = storeTarget i s ∧ flagDest j = flagDest i ∧
      loadsPc j s = loadsPc i s := by
  by_cases hw : i.wf = true
  · exact ⟨i, hw, rfl, rfl, rfl, rfl⟩
  · cases i with
    | trap v =>
      have hs : isServiceVector v = true := by simpa [Instr.wf] using hw
      refine ⟨decodeTrap v, ?_, exec_trap_eq v s hs, ?_⟩ <;> unfold decodeTrap <;> split_ifs <;>
        first | rfl | exact ⟨rfl, rfl, rfl⟩ | simp_all [isServiceVector]
    | _ => simp [Instr.wf] at hw

theorem stopCauses_loadsPc {i : Instr} {c : StopCause} (h : c ∈ stopCauses i) (s : State) : loadsPc i s = false := by
  cases i <;> simp [stopCauses, loadsPc] at *

theorem exhausted_notMem_stopCauses (i : Instr) : StopCause.exhausted ∉ stopCauses i := by
  cases i <;> simp [stopCauses]

/-! The step -/

theorem step_halted {s : State} (h : s.run = .halted) : step s = .fault .halted := by simp [step, h]

theorem step_running {s : State} (h : s.run = .running) :
    step s = endOfStep s.pc (decode (s.load s.pc)) s.fetch (exec (decode (s.load s.pc)) s.fetch) := by
  simp [step, h]

theorem endOfStep_next (a : Word) (i : Instr) (f t : State) :
    endOfStep a i f (.next t) =
      if a = 0xFFFF#16 ∧ loadsPc i f = false ∧ t.run = .running then .next (t.raiseStop .exhausted) else .next t :=
  rfl

theorem endOfStep_halted (a : Word) (i : Instr) (f : State) {t : State} (h : t.run = .halted) :
    endOfStep a i f (.next t) = .next t := by
  simp [endOfStep, h]

/-- What a step can do when it answers a next state: the facts of the instruction it executed, and exhaustion at the top
of memory. -/
theorem step_facts {s t : State} (h : step s = .next t) :
    s.run = .running ∧ ∃ u, ExecFacts (decode (s.load s.pc)) s.fetch u ∧
      ((s.pc = 0xFFFF#16 ∧ loadsPc (decode (s.load s.pc)) s.fetch = false ∧ u.run = .running ∧
          t = u.raiseStop .exhausted) ∨ t = u) := by
  cases hr : s.run with
  | halted => rw [step_halted hr] at h; cases h
  | running =>
    refine ⟨rfl, ?_⟩
    rw [step_running hr] at h
    cases hx : exec (decode (s.load s.pc)) s.fetch with
    | next u =>
      rw [hx, endOfStep_next] at h
      refine ⟨u, exec_facts (decode_wf _) hx, ?_⟩
      split at h <;> rename_i hc <;> cases h
      · exact .inl ⟨hc.1, hc.2.1, hc.2.2, rfl⟩
      · exact .inr rfl
    | fault f => rw [hx] at h; cases h
    | refused q => rw [hx] at h; cases h

theorem step_ir {s t : State} (h : step s = .next t) : t.ir = s.load s.pc := by
  obtain ⟨_, u, hf, ⟨_, _, _, rfl⟩ | rfl⟩ := step_facts h <;> simpa using hf.ir

/-! The loader -/

theorem State.loadImage_eq (s : State) (origin : Word) (image : List Word) :
    s.loadImage origin image =
      if origin.toNat + image.length ≤ 65536 then some { s with mem := s.mem.fill origin image, pc := origin }
      else none :=
  rfl

/-- A read after an image that fits was written. -/
theorem Memory.read_fill (m : Memory) (o : Word) (ws : List Word) (h : o.toNat + ws.length ≤ 65536) (a : Word) :
    (m.fill o ws).read a =
      if o.toNat ≤ a.toNat ∧ a.toNat < o.toNat + ws.length then ws.getD (a.toNat - o.toNat) 0#16 else m.read a := by
  induction ws generalizing m o with
  | nil => simp [Memory.fill]
  | cons w ws ih =>
    simp only [List.length_cons] at h
    simp only [Memory.fill]
    have hao : (a = o) ↔ a.toNat = o.toNat := BitVec.toNat_inj.symm
    by_cases hw : ws = []
    · subst hw
      simp only [Memory.fill, Memory.read_write, hao, List.length_cons, List.length_nil]
      by_cases h2 : a.toNat = o.toNat
      · simp [h2]
      · rw [if_neg h2, if_neg (by omega)]
    · have hl : 0 < ws.length := List.length_pos_iff.2 hw
      have ho : (o + 1#16).toNat = o.toNat + 1 := by rw [BitVec.toNat_add]; simp; omega
      rw [ih _ _ (by omega), ho, Memory.read_write]
      simp only [hao]
      by_cases h2 : a.toNat = o.toNat
      · simp [h2]
      · by_cases h3 : o.toNat ≤ a.toNat ∧ a.toNat < o.toNat + (ws.length + 1)
        · rw [if_pos (by omega), List.length_cons, if_pos h3]
          have : a.toNat - o.toNat = (a.toNat - (o.toNat + 1)) + 1 := by omega
          rw [this]; simp
        · rw [if_neg (by omega), if_neg h2, List.length_cons, if_neg h3]

end Sys2Proof.Machine
end

