-- ==== Sys2Proof/Laws/Strings.lean ====
section
/-! SUPPORT. The string scans of PUTS and PUTSP over cells and bytes that do not end the string, and the fuel they are
given. -/

namespace Sys2Proof.Machine

theorem add_one_add_ofNat (a : Word) (i : Nat) : a + 1#16 + BitVec.ofNat 16 i = a + BitVec.ofNat 16 (i + 1) := by
  rw [BitVec.add_assoc]; congr 1; apply BitVec.eq_of_toNat_eq; simp [Nat.add_comm]

/-- The scan of PUTS passes `n` non-zero cells that the sink accepts. -/
theorem putsScan_run (n extra : Nat) (a : Word) (s : State)
    (h : ∀ i < n, s.load (a + BitVec.ofNat 16 i) ≠ 0#16) (ha : s.sinkAccepts n) :
    putsScan (n + extra) a s =
      putsScan extra (a + BitVec.ofNat 16 n)
        (s.sent ((List.range n).map fun i => .out (lowByte (s.load (a + BitVec.ofNat 16 i))))) := by
  induction n generalizing a s with
  | zero => simp
  | succ n ih =>
    have h0 : s.load a ≠ 0#16 := by simpa using h 0 (by omega)
    rw [Nat.succ_add]
    simp only [putsScan, h0, if_false]
    rw [State.send_goes _ (State.sinkAccepts_mono ha (by omega))]
    simp only []
    rw [ih (a + 1#16) _ (fun i hi => by rw [add_one_add_ofNat]; exact h (i + 1) (by omega))
      (State.sinkAccepts_sent (by simpa [Nat.add_comm] using ha))]
    rw [State.sent_sent, add_one_add_ofNat, List.range_succ_eq_map]
    simp [add_one_add_ofNat]
    rfl

/-- The `i`-th byte of the packed string at `a`. -/
def State.byteFrom (s : State) (a : Word) (i : Nat) : Byte :=
  if i % 2 = 0 then lowByte (s.load (a + BitVec.ofNat 16 (i / 2)))
  else highByte (s.load (a + BitVec.ofNat 16 (i / 2)))

theorem State.byteFrom_even (s : State) (a : Word) (i : Nat) :
    s.byteFrom a (2 * i) = lowByte (s.load (a + BitVec.ofNat 16 i)) := by
  simp [State.byteFrom]

theorem State.byteFrom_odd (s : State) (a : Word) (i : Nat) :
    s.byteFrom a (2 * i + 1) = highByte (s.load (a + BitVec.ofNat 16 i)) := by
  have h1 : (2 * i + 1) % 2 = 1 := by omega
  have h2 : (2 * i + 1) / 2 = i := by omega
  simp [State.byteFrom, h1, h2]

theorem State.byteFrom_next (s : State) (a : Word) (i : Nat) : s.byteFrom (a + 1#16) i = s.byteFrom a (i + 2) := by
  have h1 : (i + 2) % 2 = i % 2 := by omega
  have h2 : (i + 2) / 2 = i / 2 + 1 := by omega
  simp only [State.byteFrom, add_one_add_ofNat, h1, h2]

theorem State.byteFrom_eq_packedByte (s : State) (i : Nat) : s.byteFrom (s.reg .r0) i = s.packedByte i := by
  unfold State.byteFrom State.packedByte
  rw [lowByte_eq, highByte_eq]; rfl

theorem range_add_two (n : Nat) : List.range (n + 2) = 0 :: 1 :: (List.range n).map (· + 2) := by
  rw [List.range_succ_eq_map, List.range_succ_eq_map]; simp [Function.comp_def]

/-- The scan of PUTSP passes `n` cells without a zero byte that the sink accepts. -/
theorem putspScan_run (n extra : Nat) (a : Word) (s : State) (h : ∀ i < 2 * n, s.byteFrom a i ≠ 0#8)
    (ha : s.sinkAccepts (2 * n)) :
    putspScan (n + extra) a s =
      putspScan extra (a + BitVec.ofNat 16 n) (s.sent ((List.range (2 * n)).map fun i => .out (s.byteFrom a i))) := by
  induction n generalizing a s with
  | zero => simp
  | succ n ih =>
    have h0 : lowByte (s.load a) ≠ 0#8 := by simpa [State.byteFrom] using h 0 (by omega)
    have h1 : highByte (s.load a) ≠ 0#8 := by simpa [State.byteFrom] using h 1 (by omega)
    rw [Nat.succ_add]
    simp only [putspScan, h0, h1, if_false]
    rw [State.send_goes _ (State.sinkAccepts_mono ha (by omega))]
    simp only []
    rw [State.send_goes _ (State.sinkAccepts_sent (State.sinkAccepts_mono ha (by simp)))]
    simp only [State.sent_sent]
    have hb : ∀ es i, (s.sent es).byteFrom (a + 1#16) i = s.byteFrom a (i + 2) := fun es i => s.byteFrom_next a i
    rw [ih (a + 1#16) _ (fun i hi => by rw [hb]; exact h (i + 2) (by omega))
      (State.sinkAccepts_sent (State.sinkAccepts_mono ha (by simp; omega)))]
    have hn : 2 * (n + 1) = 2 * n + 2 := by omega
    rw [State.sent_sent, add_one_add_ofNat, hn, range_add_two]
    simp only [hb, List.map_cons, List.map_map]
    simp [State.byteFrom, Function.comp_def]

/-- A scan has fuel for every string shorter than the address space, and for its end. -/
theorem State.scanFuel_of_lt (s : State) {n : Nat} (hn : n < 65536) : ∃ e, s.scanFuel = n + (e + 1) := by
  unfold State.scanFuel
  split
  · exact ⟨65536 - n - 1, by simp only [Config.numCells]; omega⟩
  · rename_i k _; exact ⟨65536 - n + k, by simp only [Config.numCells]; omega⟩

/-- A scan has fuel for as many cells as the sink accepts requests, and one more. -/
theorem State.scanFuel_of_sink {s : State} {k : Nat} (hs : s.sink = some k) : ∃ e, s.scanFuel = k + (e + 1) :=
  ⟨65536, by simp only [State.scanFuel, hs, Config.numCells]; omega⟩

theorem State.scanFuel_of_none {s : State} (hs : s.sink = none) : s.scanFuel = 65536 := by
  simp [State.scanFuel, hs, Config.numCells]

theorem exec_puts (s : State) :
    exec .puts s = finishString (putsScan s.enterTrap.scanFuel (s.reg .r0) s.enterTrap) := rfl

theorem exec_putsp (s : State) :
    exec .putsp s = finishString (putspScan s.enterTrap.scanFuel (s.reg .r0) s.enterTrap) := rfl

theorem finishString_eq_fault {o : Option Flow} : finishString o = .fault .endlessString ↔ o = none := by
  cases o with
  | none => simp [finishString]
  | some f =>
    cases f with
    | stops t => simp [finishString, Flow.andThen]
    | goes t =>
      simp only [finishString, Flow.andThen, State.send_eq]
      split <;> simp

end Sys2Proof.Machine
end

