-- ==== Sys2Proof/Tests/Slice0.lean ====
section
/-! SUPPORT. Tests, with expected results from 95_test_vectors.md (the table is named at each block), and a witness for
every obligation that has hypotheses. -/

namespace Sys2Proof.Tests

open Sys2Proof.Machine

/-! ### Helpers -/

/-- The state after reset with `w` in the cell at `a`, about to be fetched. -/
def fetching (a w : Word) (s : State := State.reset) : State := { s.store a w with pc := a }

/-- The state after reset with no input to come. -/
def noInput : State := { State.reset with input := ⟨[], none⟩ }

/-- What a test looks at in the next state of a step. -/
def seen {α : Type} (look : State → α) (s : State) : Option α :=
  match step s with
  | .next t => some (look t)
  | .fault _ | .refused _ => none

/-- The fault of a step. -/
def faultOf (s : State) : Option Fault :=
  match step s with
  | .fault f => some f
  | .next _ | .refused _ => none

/-- What the vectors of the flag-writing instructions give. -/
def result (r : Reg) (t : State) : Word × Cond × Word := (t.reg r, t.cond, t.pc)

/-- What the TRAP vectors give beside the events: R0, R7, `pc`, the condition state and the stop. -/
structure Trapped where
  r0 : Word
  r7 : Word
  pc : Word
  cond : Cond
  stop : Option StopRecord
deriving DecidableEq

def trapped (t : State) : Trapped := ⟨t.reg .r0, t.reg .r7, t.pc, t.cond, t.stop⟩

/-- "HI" at 0x4000 and R0 at it (S6). -/
def hi : State := ((State.reset.setReg .r0 0x4000#16).store 0x4000#16 0x0048#16).store 0x4001#16 0x0049#16

/-! ### Well-formedness: a TRAP with a service vector is not a term the decoder gives -/

theorem test_wf_refuses_service_vectors :
    ∀ v ∈ [0x20#8, 0x21#8, 0x22#8, 0x23#8, 0x24#8, 0x25#8], (Instr.trap v).wf = false := by decide

theorem test_wf_accepts_other_vectors :
    ∀ v ∈ [0x00#8, 0x1F#8, 0x26#8, 0x99#8, 0xFF#8], (Instr.trap v).wf = true := by decide

/-! ### Decoding (30_encoding.md R51 to R53, V-DEC, S1): one word a constructor, bits 15 to 0 -/

theorem test_decode_br : decode 0b0000_101_000000101#16 = .br true false true 5#9 := by decide
theorem test_decode_addR : decode 0b0001_010_000_0_11_001#16 = .addR .r2 .r0 .r1 := by decide
theorem test_decode_addI : decode 0b0001_001_001_1_11111#16 = .addI .r1 .r1 0x1F#5 := by decide
theorem test_decode_ld : decode 0b0010_010_000001110#16 = .ld .r2 0x00E#9 := by decide
theorem test_decode_st : decode 0b0011_100_000001101#16 = .st .r4 0x00D#9 := by decide
theorem test_decode_jsr : decode 0b0100_1_10000000000#16 = .jsr 0x400#11 := by decide
theorem test_decode_jsrr : decode 0b0100_0_11_010_111111#16 = .jsrr .r2 := by decide
theorem test_decode_andR : decode 0b0101_011_001_0_00_010#16 = .andR .r3 .r1 .r2 := by decide
theorem test_decode_andI : decode 0b0101_100_101_1_10000#16 = .andI .r4 .r5 0x10#5 := by decide
theorem test_decode_ldr : decode 0b0110_011_001_100000#16 = .ldr .r3 .r1 0x20#6 := by decide
theorem test_decode_str : decode 0b0111_100_001_000110#16 = .str .r4 .r1 0x06#6 := by decide
theorem test_decode_rti : decode 0b1000_111111111111#16 = .rti := by decide
theorem test_decode_not : decode 0b1001_001_010_000000#16 = .notR .r1 .r2 := by decide
theorem test_decode_ldi : decode 0b1010_101_000001101#16 = .ldi .r5 0x00D#9 := by decide
theorem test_decode_sti : decode 0b1011_101_000001100#16 = .sti .r5 0x00C#9 := by decide
theorem test_decode_jmp : decode 0b1100_111_011_111111#16 = .jmp .r3 := by decide
theorem test_decode_res : decode 0b1101_101010111100#16 = .res := by decide
theorem test_decode_lea : decode 0b1110_001_000001111#16 = .lea .r1 0x00F#9 := by decide
theorem test_decode_trap : decode 0b1111_0000_10011001#16 = .trap 0x99#8 := by decide
theorem test_decode_getc : decode 0b1111_0000_00100000#16 = .getc := by decide
theorem test_decode_out : decode 0b1111_1010_00100001#16 = .out := by decide
theorem test_decode_puts : decode 0b1111_0000_00100010#16 = .puts := by decide
theorem test_decode_in : decode 0b1111_0000_00100011#16 = .inChar := by decide
theorem test_decode_putsp : decode 0b1111_0000_00100100#16 = .putsp := by decide
theorem test_decode_halt : decode 0b1111_0001_00100101#16 = .halt := by decide
theorem test_encode_canonical :
    encode (.notR .r5 .r5) = 0x9B7F#16 ∧ encode (.addR .r2 .r0 .r1) = 0x1401#16 ∧ encode (.jmp .r7) = 0xC1C0#16 ∧
      encode (.jsrr .r2) = 0x4080#16 ∧ encode .halt = 0xF025#16 := by decide

/-! ### Sign extension and the condition state (S2, S3) -/

theorem test_sext :
    sext 0x10#5 = 0xFFF0#16 ∧ sext 0x0F#5 = 0x000F#16 ∧ sext 0x20#6 = 0xFFE0#16 ∧ sext 0x1FD#9 = 0xFFFD#16 ∧
      sext 0x400#11 = 0xFC00#16 := by decide

theorem test_conditionOf :
    [0x0000#16, 0x0001#16, 0x7FFF#16, 0x8000#16, 0xFFFF#16].map conditionOf = [.z, .p, .p, .n, .n] := by decide

/-- The numeric codes of 60_exceptions.md R171. -/
theorem test_stopCode :
    stopCode none = 0#3 ∧
      [StopCause.halt, .exhausted, .reservedOpcode, .unknownTrap, .ioFailure].map
        (fun c => stopCode (some ⟨c, 0#16, 0#4, 0#8⟩)) = [1#3, 2#3, 3#3, 4#3, 5#3] := by decide

/-- The V-BR truth table, a column for each condition state. -/
theorem test_branchTaken :
    [Cond.n, .z, .p].map (fun c => [(false, false, false), (false, false, true), (false, true, false),
        (false, true, true), (true, false, false), (true, false, true), (true, true, false), (true, true, true)].map
      fun b => branchTaken b.1 b.2.1 b.2.2 c) =
    [[false, false, false, false, true, true, true, true], [false, false, true, true, false, false, true, true],
      [false, true, false, true, false, true, false, true]] := by decide

/-! ### Operate instructions (V-OP) -/

theorem test_addR_overflow :
    seen (result .r2) (fetching 0x3000#16 0x1401#16 ((State.reset.setReg .r0 0x7FFF#16).setReg .r1 0x0001#16)) =
      some (0x8000#16, .n, 0x3001#16) := by decide

theorem test_addR_same_register :
    seen (result .r1) (fetching 0x3000#16 0x1241#16 (State.reset.setReg .r1 0x4001#16)) =
      some (0x8002#16, .n, 0x3001#16) := by decide

theorem test_addI_minus_one :
    seen (result .r1) (fetching 0x3000#16 0x127F#16) = some (0xFFFF#16, .n, 0x3001#16) := by decide

theorem test_addI_sixteen :
    seen (result .r3) (fetching 0x3000#16 0x16B0#16 (State.reset.setReg .r2 0x0010#16)) =
      some (0x0000#16, .z, 0x3001#16) := by decide

theorem test_andR :
    seen (result .r3) (fetching 0x3000#16 0x5642#16 ((State.reset.setReg .r1 0xF0F0#16).setReg .r2 0x0FF0#16)) =
      some (0x00F0#16, .p, 0x3001#16) := by decide

theorem test_andI_sign_extends :
    seen (result .r4) (fetching 0x3000#16 0x5970#16 (State.reset.setReg .r5 0xABCD#16)) =
      some (0xABC0#16, .n, 0x3001#16) := by decide

theorem test_not_ignores_low_bits :
    seen (result .r1) (fetching 0x3000#16 0x9280#16 (State.reset.setReg .r2 0x8000#16)) =
      some (0x7FFF#16, .p, 0x3001#16) := by decide

/-! ### Control transfer (V-CT) -/

theorem test_br_backward :
    seen (·.pc) (fetching 0x3000#16 0x0F00#16 { State.reset with cond := .p }) = some 0x2F01#16 := by decide

theorem test_br_taken_at_top :
    seen (fun t => (t.pc, t.run)) (fetching 0xFFFF#16 0x0E00#16) = some (0x0000#16, .running) := by decide

theorem test_jmp_unused_bits :
    seen (·.pc) (fetching 0x3007#16 0xCEFF#16 (State.reset.setReg .r3 0xFFFF#16)) = some 0xFFFF#16 := by decide

theorem test_jsr_wraps :
    seen (fun t => (t.reg .r7, t.pc)) (fetching 0xFFF0#16 0x4BFF#16) = some (0xFFF1#16, 0x03F0#16) := by decide

theorem test_jsrr :
    seen (fun t => (t.reg .r7, t.pc)) (fetching 0x3003#16 0x4080#16 (State.reset.setReg .r2 0x3005#16)) =
      some (0x3004#16, 0x3005#16) := by decide

theorem test_jsrr_r7_falls_through :
    seen (fun t => (t.reg .r7, t.pc)) (fetching 0x3000#16 0x41C0#16 (State.reset.setReg .r7 0x4000#16)) =
      some (0x3001#16, 0x3001#16) := by decide

/-! ### Loads and LEA (V-LD) -/

theorem test_ld_own_word :
    seen (result .r2) (fetching 0x3001#16 0x25FF#16) = some (0x25FF#16, .p, 0x3002#16) := by decide

theorem test_ld_at_top :
    seen (fun t => (result .r3 t, t.stop)) (fetching 0xFFFF#16 0x27FF#16) =
      some ((0x27FF#16, .p, 0x0000#16), some ⟨.exhausted, 0xFFFF#16, 2#4, 0xFF#8⟩) := by decide

theorem test_ldi_flags_from_datum :
    seen (result .r5)
      (fetching 0x3005#16 0xAA01#16 ((State.reset.store 0x3007#16 0xFFFF#16).store 0xFFFF#16 0x8000#16)) =
      some (0x8000#16, .n, 0x3006#16) := by decide

theorem test_ldr_address_wraps :
    seen (result .r3)
      (fetching 0x3002#16 0x665F#16 ((State.reset.setReg .r1 0xFFFF#16).store 0x001E#16 0x0007#16)) =
      some (0x0007#16, .p, 0x3003#16) := by decide

theorem test_ldr_base_is_destination :
    seen (result .r1)
      (fetching 0x3002#16 0x6240#16 { State.reset.setReg .r1 0x4000#16 with cond := .p }) =
      some (0x0000#16, .z, 0x3003#16) := by decide

theorem test_lea_own_address :
    seen (result .r4) (fetching 0x9000#16 0xE9FF#16) = some (0x9000#16, .n, 0x9001#16) := by decide

/-! ### Stores (V-ST) -/

theorem test_st_overwrites_itself :
    seen (fun t => (t.load 0x3004#16, t.ir, t.pc)) (fetching 0x3004#16 0x39FF#16 (State.reset.setReg .r4 0xF025#16)) =
      some (0xF025#16, 0x39FF#16, 0x3005#16) := by decide

theorem test_sti_overwrites_its_pointer :
    seen (fun t => (t.load 0x3008#16, t.pc))
      (fetching 0x3007#16 0xBA00#16 ((State.reset.setReg .r5 0x0001#16).store 0x3008#16 0x3008#16)) =
      some (0x0001#16, 0x3008#16) := by decide

theorem test_str_address_wraps :
    seen (fun t => (t.load 0xFFFF#16, t.pc)) (fetching 0x3008#16 0x787F#16 (State.reset.setReg .r4 0x5555#16)) =
      some (0x5555#16, 0x3009#16) := by decide

theorem test_str_source_is_base :
    seen (fun t => (t.load 0x4000#16, t.cond))
      (fetching 0x3008#16 0x7240#16 { State.reset.setReg .r1 0x4000#16 with cond := .p }) =
      some (0x4000#16, .p) := by decide

/-! ### Reserved opcodes (V-RS) -/

theorem test_rti_unused_bits :
    seen (fun t => (t.pc, t.stop)) (fetching 0x3001#16 0x8FFF#16) =
      some (0x3002#16, some ⟨.reservedOpcode, 0x3001#16, 8#4, 0xFF#8⟩) := by decide

theorem test_res_at_top :
    seen (fun t => (t.pc, t.stop)) (fetching 0xFFFF#16 0xD000#16) =
      some (0x0000#16, some ⟨.reservedOpcode, 0xFFFF#16, 13#4, 0x00#8⟩) := by decide

/-! ### TRAP and its routines (V-TR) -/

theorem test_getc_sets_no_flag :
    seen trapped (fetching 0x3000#16 0xF020#16 { State.reset.setReg .r0 0x1234#16 with cond := .p, input := ⟨[0x00#8], none⟩ }) =
      some ⟨0x0000#16, 0x3001#16, 0x3001#16, .p, none⟩ := by decide

theorem test_getc_blocks :
    faultOf (fetching 0x3000#16 0xF020#16 noInput) =
      some (.blockedOnInput { fetching 0x3000#16 0xF020#16 noInput with
        regs := State.reset.regs.set .r7 0x3001#16, pc := 0x3001#16, ir := 0xF020#16 }) := by decide

theorem test_out_at_top :
    seen (fun t => (t.output, trapped t)) (fetching 0xFFFF#16 0xF021#16 (State.reset.setReg .r0 0x0041#16)) =
      some ([.out 0x41#8],
        ⟨0x0041#16, 0x0000#16, 0x0000#16, .z, some ⟨.exhausted, 0xFFFF#16, 15#4, 0x21#8⟩⟩) := by decide

theorem test_out_refused :
    seen (fun t => (t.output, trapped t))
      (fetching 0x3000#16 0xF021#16 { State.reset.setReg .r0 0x0041#16 with sink := some 0 }) =
      some ([], ⟨0x0041#16, 0x3001#16, 0x3001#16, .z, some ⟨.ioFailure, 0x3000#16, 15#4, 0x21#8⟩⟩) := by decide

theorem test_puts_high_bytes :
    seen (·.output)
      (fetching 0x3000#16 0xF022#16
        (((State.reset.setReg .r0 0x4000#16).store 0x4000#16 0x0141#16).store 0x4001#16 0x0100#16)) =
      some [.out 0x41#8, .out 0x00#8, .flush] := by decide

theorem test_puts_second_byte_refused :
    seen (fun t => (t.output, t.stop)) (fetching 0x3000#16 0xF022#16 { hi with sink := some 1 }) =
      some ([.out 0x48#8], some ⟨.ioFailure, 0x3000#16, 15#4, 0x22#8⟩) := by decide

theorem test_in :
    seen (fun t => (t.output.drop 19, t.input, trapped t))
      (fetching 0x3000#16 0xF023#16 { State.reset.setReg .r0 0xFFFF#16 with cond := .p, input := ⟨[0x62#8], none⟩ }) =
      some ([.out 0x62#8], ⟨[], none⟩, ⟨0x0062#16, 0x3001#16, 0x3001#16, .p, none⟩) := by decide

/-- The echo is refused: R0 is not written, and the byte has been consumed. -/
theorem test_in_echo_refused :
    seen (fun t => (t.output.length, t.input, trapped t))
      (fetching 0x3000#16 0xF023#16
        { State.reset.setReg .r0 0x7777#16 with sink := some 19, input := ⟨[0x62#8], none⟩ }) =
      some (19, ⟨[], none⟩, ⟨0x7777#16, 0x3001#16, 0x3001#16, .z, some ⟨.ioFailure, 0x3000#16, 15#4, 0x23#8⟩⟩) := by decide

theorem test_putsp_odd_length :
    seen (·.output)
      (fetching 0x3000#16 0xF024#16
        ((((State.reset.setReg .r0 0x4000#16).store 0x4000#16 0x6548#16).store 0x4001#16 0x006F#16).store 0x4002#16
          0x4141#16)) =
      some [.out 0x48#8, .out 0x65#8, .out 0x6F#8, .flush] := by decide

theorem test_putsp_low_byte_zero :
    seen (·.output)
      (fetching 0x3000#16 0xF024#16 ((State.reset.setReg .r0 0x4000#16).store 0x4000#16 0x4100#16)) =
      some [.flush] := by decide

theorem test_halt_at_top :
    seen (fun t => (t.output.length, trapped t)) (fetching 0xFFFF#16 0xF025#16) =
      some (6, ⟨0x0000#16, 0x0000#16, 0x0000#16, .z, some ⟨.halt, 0xFFFF#16, 15#4, 0x25#8⟩⟩) := by decide

theorem test_halt_flush_refused :
    seen (fun t => (t.output.length, t.stop)) (fetching 0x3000#16 0xF025#16 { State.reset with sink := some 5 }) =
      some (5, some ⟨.ioFailure, 0x3000#16, 15#4, 0x25#8⟩) := by decide

theorem test_unknown_trap :
    seen trapped (fetching 0x3000#16 0xF099#16) =
      some ⟨0x0000#16, 0x3001#16, 0x3001#16, .z, some ⟨.unknownTrap, 0x3000#16, 15#4, 0x99#8⟩⟩ := by decide

theorem test_trap_after_last_service :
    seen (·.stop) (fetching 0x3000#16 0xF026#16) = some (some ⟨.unknownTrap, 0x3000#16, 15#4, 0x26#8⟩) := by decide

/-! ### The cycle, reset and the loader (V-CY, V-RST, S10) -/

theorem test_nop_at_top :
    seen (fun t => (t.pc, t.cond, t.stop)) { State.reset with pc := 0xFFFF#16 } =
      some (0x0000#16, .z, some ⟨.exhausted, 0xFFFF#16, 0#4, 0x00#8⟩) := by decide

theorem test_no_step_when_halted : faultOf { State.reset with run := .halted } = some .halted := by decide

theorem test_image_file :
    parseImage [0x30#8, 0x00#8, 0xF0#8, 0x25#8] = some (0x3000#16, [0xF025#16]) ∧
      parseImage [0x30#8, 0x00#8, 0xF0#8] = none ∧ parseImage [] = none := by decide

theorem test_launch :
    (launch 0x3000#16 [0xF025#16]).map (fun s => (s.load 0x3000#16, s.pc, s.cond, s.run)) =
      some (0xF025#16, 0x3000#16, .z, .running) := by decide

/-- A word placed by `withFetchWord` is the one the first step runs (log 20): a GETC, which takes a free byte (log 3). -/
theorem test_withFetchWord :
    seen (fun t => (t.reg .r7, t.ir, t.input)) (State.reset.withFetchWord 16 0xF020) =
      some (0x0001#16, 0xF020#16, ⟨[], some 1⟩) := rfl

/-- A write of what an unlisted address reads as removes the entry (log 1). -/
theorem test_memory_canonical :
    (((Memory.write [] 0x0005#16 7#16).write 0x0003#16 9#16).write 0x0005#16 0#16) = [(3, 9#16)] := by decide

/-! ### Witnesses: a state and operands that meet the hypotheses of each obligation that has some -/

/-- A memory whose every cell holds 0x0101: no string in it ends. -/
def fullMemory : Memory := (List.range' 0 65536).map fun a => (a, 0x0101#16)

theorem lookup_block (n b a : Nat) (hb : b ≤ a) (ha : a < b + n) :
    Memory.lookup ((List.range' b n).map fun k => (k, 0x0101#16)) a = 0x0101#16 := by
  induction n generalizing b with
  | zero => omega
  | succ n ih =>
    rw [List.range'_succ, List.map_cons, Memory.lookup]
    split
    · rfl
    · exact ih (b + 1) (by omega) (by omega)

theorem fullMemory_read (a : Word) : fullMemory.read a = 0x0101#16 := lookup_block _ _ _ (by omega) (by omega)

theorem address_of_small {i : Nat} (h : i < 65535) : 0#16 + BitVec.ofNat 16 i ≠ 0xFFFF#16 := by
  intro e
  have := congrArg BitVec.toNat e
  simp at this
  omega

/-- The longest string: every cell but the one at 0xFFFF is non-zero. -/
def longest (last : Word) : State := { State.reset with mem := fullMemory.write 0xFFFF#16 last }

theorem longest_stringCell (last : Word) (i : Nat) :
    (longest last).stringCell i =
      if 0#16 + BitVec.ofNat 16 i = 0xFFFF#16 then last else fullMemory.read (0#16 + BitVec.ofNat 16 i) :=
  Memory.read_write ..

theorem longest_load (last : Word) {i : Nat} (h : i < 65535) : (longest last).stringCell i = 0x0101#16 := by
  rw [longest_stringCell, if_neg (address_of_small h), fullMemory_read]

theorem longest_load_last (last : Word) : (longest last).stringCell 65535 = last := by
  rw [longest_stringCell, if_pos (by decide)]

/-- A state in which no string ends. -/
def endless : State := { State.reset with mem := fullMemory }

theorem endless_load (a : Word) : endless.load a = 0x0101#16 := fullMemory_read a

theorem witness_signAndZeroExtension : ∀ n ∈ [1, 16], 1 ≤ n ∧ n ≤ 16 := by decide

theorem witness_sextThenAddIsSignedAdd : ∀ n ∈ [5, 6, 9, 11], n ∈ [5, 6, 9, 11] := by decide

/-- Two canonical memories, built in different orders, that read alike. -/
theorem witness_canonicalMemory :
    let m := (Memory.write [] 3#16 7#16).write 5#16 9#16
    let m' := (Memory.write [] 5#16 9#16).write 3#16 7#16
    m.wf ∧ m'.wf ∧ ∀ a : Word, m.read a = m'.read a := by
  refine ⟨by decide, by decide, fun a => ?_⟩
  simp only [Memory.read_write]
  split_ifs <;> simp_all

theorem witness_branchOnCondition :
    ∀ c ∈ [Cond.n, .z, .p],
      ((true = true ∧ c = .n) ∨ (true = true ∧ c = .z) ∨ (true = true ∧ c = .p)) ∧
      ¬((false = true ∧ c = .n) ∨ (false = true ∧ c = .z) ∨ (false = true ∧ c = .p)) := by decide

/-- STI and LDI through the same pointer cell, as in program P9: the second fetch is one cell later. -/
theorem witness_storeIndirect :
    let s := fetching 0x3003#16 0xBA02#16 (State.reset.store 0x3006#16 0x3007#16)
    ∃ t, exec (.sti .r5 0x002#9) s.fetch = .next t ∧
      t.load (0x3005#16 + (0x001#9).signExtend 16) = s.fetch.load (s.fetch.pc + (0x002#9).signExtend 16) :=
  ⟨_, rfl, by decide⟩

theorem fetching_load (a w : Word) : (fetching a w).load (fetching a w).pc = w :=
  State.store_load_same ..

theorem witness_rtiStops (u : BitVec 12) :
    (fetching 0x3001#16 (0b1000#4 ++ u)).run = .running ∧
      (fetching 0x3001#16 (0b1000#4 ++ u)).load (fetching 0x3001#16 (0b1000#4 ++ u)).pc = 0b1000#4 ++ u :=
  ⟨rfl, fetching_load _ _⟩

theorem witness_resStops (u : BitVec 12) :
    (fetching 0xFFFF#16 (0b1101#4 ++ u)).run = .running ∧
      (fetching 0xFFFF#16 (0b1101#4 ++ u)).load (fetching 0xFFFF#16 (0b1101#4 ++ u)).pc = 0b1101#4 ++ u :=
  ⟨rfl, fetching_load _ _⟩

theorem witness_unknownTrapStops :
    ((0x00#8).toNat < 0x20 ∧ (0x1F#8).toNat < 0x20 ∧ 0x25 < (0x26#8).toNat ∧ 0x25 < (0xFF#8).toNat) ∧
      ∀ v : Byte, (fetching 0x3000#16 (0b1111#4 ++ 0x0#4 ++ v)).run = .running ∧
        (fetching 0x3000#16 (0b1111#4 ++ 0x0#4 ++ v)).load (fetching 0x3000#16 (0b1111#4 ++ 0x0#4 ++ v)).pc =
          0b1111#4 ++ 0x0#4 ++ v :=
  ⟨by decide, fun _ => ⟨rfl, fetching_load _ _⟩⟩

theorem witness_getcReadsOneByte : 
    { State.reset with input := ⟨[0x61#8], none⟩ }.input.deliver = some (0x61#8, ⟨[], none⟩) ∧
      State.reset.input.deliver = some (Config.inputByte 0, ⟨[], some 1⟩) := ⟨rfl, rfl⟩

theorem witness_outWritesLowByte : State.reset.sinkAccepts 1 ∧ { State.reset with sink := some 1 }.sinkAccepts 1 := by
  constructor <;> intro k hk <;> cases hk; exact le_rfl

/-- The empty string, "HI", and the longest string. -/
theorem witness_putsWritesTheString :
    (State.reset.stringCell 0 = 0#16 ∧ State.reset.sinkAccepts (0 + 1)) ∧
    ((∀ i < 2, hi.stringCell i ≠ 0#16) ∧ hi.stringCell 2 = 0#16 ∧ hi.sinkAccepts (2 + 1)) ∧
    (∀ i < 65535, (longest 0#16).stringCell i ≠ 0#16) ∧ (longest 0#16).stringCell 65535 = 0#16 ∧
      (longest 0#16).sinkAccepts (65535 + 1) := by
  refine ⟨⟨by decide, fun _ h => by cases h⟩, ⟨by decide, by decide, fun _ h => by cases h⟩, fun i hi => ?_,
    longest_load_last _, fun _ h => by cases h⟩
  rw [longest_load _ hi]; decide

theorem witness_inPromptsReadsAndEchoes :
    let s := { State.reset with input := ⟨[0x62#8], none⟩, sink := some 20 }
    s.input.deliver = some (0x62#8, ⟨[], none⟩) ∧ s.sinkAccepts (s.params.inPrompt.length + 1) := by
  refine ⟨rfl, fun k hk => ?_⟩
  cases hk; decide

/-- The empty string, an odd one, and the longest string. -/
theorem witness_putspWritesThePackedString :
    let odd := (State.reset.setReg .r0 0x4000#16).store 0x4000#16 0x0041#16
    (State.reset.packedByte 0 = 0#8 ∧ State.reset.sinkAccepts (0 + 1)) ∧
    ((∀ i < 1, odd.packedByte i ≠ 0#8) ∧ odd.packedByte 1 = 0#8 ∧ odd.sinkAccepts (1 + 1)) ∧
    (∀ i < 131071, (longest 0x0001#16).packedByte i ≠ 0#8) ∧ (longest 0x0001#16).packedByte 131071 = 0#8 ∧
      (longest 0x0001#16).sinkAccepts (131071 + 1) := by
  refine ⟨⟨by decide, fun _ h => by cases h⟩, ⟨by decide, by decide, fun _ h => by cases h⟩, fun i hi => ?_, ?_,
    fun _ h => by cases h⟩
  · unfold State.packedByte
    by_cases h : i / 2 < 65535
    · rw [longest_load _ h]; split <;> decide
    · have : i / 2 = 65535 := by omega
      have : i % 2 = 0 := by omega
      rw [if_pos this, ‹i / 2 = 65535›, longest_load_last]; decide
  · show State.packedByte _ (2 * 65535 + 1) = _
    rw [State.packedByte, if_neg (by decide), show (2 * 65535 + 1) / 2 = 65535 from rfl, longest_load_last]; decide

theorem witness_haltStopsTheRun :
    State.reset.sinkAccepts (State.reset.params.haltNotice.length + 1) := fun _ h => by cases h

/-- A clause each, at the first and the last count of accepted requests. -/
theorem witness_refusedOutputStopsOutInHalt :
    (∀ k ∈ [0, 5], k ≤ State.reset.params.haltNotice.length) ∧ (∀ k ∈ [0, 18], k < State.reset.params.inPrompt.length) ∧
      19 = State.reset.params.inPrompt.length ∧ 
        { State.reset with input := ⟨[0x62#8], none⟩ }.input.deliver = some (0x62#8, ⟨[], none⟩) := by decide

/-- The first byte refused, and the flush after the last byte refused. -/
theorem witness_refusedOutputStopsPutsPutsp :
    (∀ i < 0, hi.stringCell i ≠ 0#16) ∧ (∀ i < 2, hi.stringCell i ≠ 0#16) ∧ (∀ i < 0, hi.packedByte i ≠ 0#8) ∧
      (∀ i < 1, hi.packedByte i ≠ 0#8) ∧ { hi with sink := some 2 }.sink = some 2 := by decide

theorem witness_endlessString :
    endless.sink = none ∧ (∀ a : Word, endless.load a ≠ 0#16) ∧
      ∀ a : Word, (endless.load a).setWidth 8 ≠ 0#8 ∧ (endless.load a >>> 8).setWidth 8 ≠ 0#8 := by
  refine ⟨rfl, fun a => ?_, fun a => ?_⟩ <;> rw [endless_load] <;> decide

theorem witness_inputThatNeverComesBlocks :
    noInput.input.deliver = none ∧ noInput.sinkAccepts noInput.params.inPrompt.length :=
  ⟨rfl, fun _ h => by cases h⟩

/-- A step that answers a next state, and one that faults. -/
theorem witness_stepRunsTheDecodedInstruction :
    State.reset.run = .running ∧ decode (State.reset.load State.reset.pc) = .br false false false 0#9 ∧
      (∃ t, exec (.br false false false 0#9) State.reset.fetch = .next t) ∧
      decode ((fetching 0x3000#16 0xF020#16 noInput).load 0x3000#16) = .getc ∧
      ∃ e, exec .getc (fetching 0x3000#16 0xF020#16 noInput).fetch = .fault e :=
  ⟨rfl, by decide, ⟨_, rfl⟩, by decide, ⟨_, rfl⟩⟩

theorem witness_noStepExactlyWhenHalted :
    { State.reset with run := .halted }.run = .halted ∧ faultOf State.reset ≠ some .halted := by decide

/-- At the top of memory: an ADD, a taken BR, a RES; below the top, a NOP. -/
theorem witness_exhaustionAtTheTopOnly :
    (decode 0x1261#16 = .addI .r1 .r1 1#5 ∧ decode 0x0E00#16 = .br true true true 0#9 ∧ decode 0xD000#16 = .res ∧
      decode 0x0000#16 = .br false false false 0#9) ∧
    (∃ t, exec (.addI .r1 .r1 1#5) (fetching 0xFFFF#16 0x1261#16).fetch = .next t ∧ t.run = .running ∧
      ¬IsControlTransfer (.addI .r1 .r1 1#5) (fetching 0xFFFF#16 0x1261#16).fetch) ∧
    (∃ t, exec (.br true true true 0#9) (fetching 0xFFFF#16 0x0E00#16).fetch = .next t ∧
      IsControlTransfer (.br true true true 0#9) (fetching 0xFFFF#16 0x0E00#16).fetch) ∧
    (∃ t, exec .res (fetching 0xFFFF#16 0xD000#16).fetch = .next t ∧ t.run = .halted) ∧
    (∃ t, exec (.br false false false 0#9) (fetching 0xFFFE#16 0x0000#16).fetch = .next t ∧
      (fetching 0xFFFE#16 0x0000#16).pc ≠ 0xFFFF#16 ∧ (fetching 0xFFFE#16 0x0000#16).stop = none) ∧
    ∃ t, exec .rti State.reset.fetch = .next t ∧ State.reset.stop = none ∧ t.stop.isSome :=
  ⟨by decide, ⟨_, rfl, rfl, id⟩, ⟨_, rfl, .inr (.inl ⟨rfl, rfl⟩)⟩, ⟨_, rfl, rfl⟩, ⟨_, rfl, by decide, rfl⟩,
    ⟨_, rfl, rfl, rfl⟩⟩

theorem witness_stepIgnoresTheOldInstructionWord : State.reset.run = .running := rfl

/-- Step 2 of program P8: ST R1 to the next cell, whose new word is HALT. -/
theorem witness_nextFetchSeesTheStore :
    let s := fetching 0x3001#16 0x3200#16 (State.reset.setReg .r1 0xF025#16)
    s.run = .running ∧ storeTarget (decode (s.load s.pc)) s.fetch = some (0x3002#16, 0xF025#16) ∧
      seen (fun t => (t.pc, t.load 0x3002#16)) s = some (0x3002#16, 0xF025#16) ∧
      ∃ t, step s = .next t ∧ ∃ u, step t = .next u :=
  ⟨rfl, by decide, by decide, _, rfl, _, rfl⟩

/-- The frames say something of an instruction that answers a next state: a store, a load, a jump, a stop. -/
theorem witness_frames :
    (∃ t, exec (.str .r1 .r2 0#6) State.reset = .next t) ∧ (∃ t, exec (.ld .r1 0#9) State.reset = .next t) ∧
      (∃ t, exec (.trap 0x99#8) State.reset = .next t) ∧ (Instr.trap 0x99#8).wf = true ∧
      (∃ t, exec (.br false true false 1#9) { State.reset with cond := .n } = .next t) ∧
      ¬IsControlTransfer (.br false true false 1#9) { State.reset with cond := .n } ∧
      ¬IsControlTransfer (.ld .r1 0#9) State.reset :=
  ⟨⟨_, rfl⟩, ⟨_, rfl⟩, ⟨_, rfl⟩, by decide, ⟨_, rfl⟩, by simp [IsControlTransfer], id⟩

/-- A TRAP that answers a next state, and one that waits. -/
theorem witness_trapSideEffectsAreConfined :
    Instr.puts.wf = true ∧ Instr.puts.opcode = .trap ∧ (∃ t, exec .halt State.reset = .next t) ∧
      ∃ mid, exec .getc noInput = .fault (.blockedOnInput mid) :=
  ⟨rfl, rfl, ⟨_, rfl⟩, ⟨_, rfl⟩⟩

theorem witness_onlyBrReadsCond : Instr.rti.opcode ≠ .br := by decide

/-- A step with a next state from a state of the invariant, and a step that ends the run from one. -/
theorem witness_stepKeepsTheInvariant :
    State.reset.Inv ∧ (∃ t, step State.reset = .next t) ∧ (fetching 0x3001#16 0x8000#16).Inv ∧
      ∃ t, step (fetching 0x3001#16 0x8000#16) = .next t ∧ t.run = .halted := by
  refine ⟨⟨State.reset_mem_wf, ⟨fun _ => rfl, fun _ => rfl⟩, fun r h => by cases h⟩, ⟨_, rfl⟩,
    ⟨State.store_wf State.reset 0x3001#16 0x8000#16 State.reset_mem_wf, ⟨fun _ => rfl, fun _ => rfl⟩,
      fun r h => by cases h⟩, _, rfl, rfl⟩

/-- The invariant excludes something: a stop record that names another instruction. -/
theorem test_invariant_is_not_empty_of_content :
    ¬{ State.reset with run := .halted, stop := some ⟨.halt, 0x3000#16, 15#4, 0x25#8⟩ }.Inv := by
  rintro ⟨_, _, h⟩
  exact absurd (h _ rfl).1 (by decide)

/-- An image that fills the space to its end fits, and one word more does not. -/
theorem witness_loadImageContract :
    (0xFFFF#16).toNat + [0xF025#16].length ≤ 65536 ∧ 65536 < (0xFFFF#16).toNat + [0x0000#16, 0xF025#16].length := by
  decide

theorem witness_imageFile : ([] : List Byte) = [] ∧ [0x30#8, 0x00#8, 0xF0#8].length % 2 = 1 := by decide

theorem witness_decodeInvertsEncode :
    (Instr.trap 0x26#8).wf = true ∧ Instr.halt.wf = true ∧ (Instr.ldr .r7 .r0 0x3F#6).wf = true := by decide

end Sys2Proof.Tests
end

section
/-! PROOFS. The statements of 00_scope.md: the extensions of a field (R7), and which instructions load `pc` (R8). -/

namespace Sys2Proof.Machine

/-! Sign and zero extension (R7) -/

/-- The bits above a field whose top bit is set are worth `2^16 - 2^n`. -/
theorem sext_toNat {n : Nat} (hn : n ≤ 16) (f : BitVec n) :
    (sext f).toNat = if f.getLsbD (n - 1) then f.toNat + (65536 - 2 ^ n) else f.toNat := by
  have fits : f.toNat < 2 ^ 16 := f.isLt.trans_le (Nat.pow_le_pow_right (by decide) hn)
  rw [sext, BitVec.toNat_signExtend, BitVec.toNat_setWidth, Nat.mod_eq_of_lt fits, BitVec.msb_eq_getLsbD_last]
  split <;> rfl

theorem zext_toNat (c : Byte) : (zext c).toNat = c.toNat :=
  BitVec.toNat_setWidth_of_le (by decide)

/-- Settles O1, by the number each extension has. -/
theorem signAndZeroExtension : Obligations.SignAndZeroExtension :=
  fun _ _ hn => ⟨sext_toNat hn, zext_toNat⟩

/-! The instructions that load `pc` (R8, R12) -/

theorem loadsPc_iff (i : Instr) (s : State) : loadsPc i s = true ↔ IsControlTransfer i s := by
  cases i with
  | br n z p off => exact branchTaken_iff n z p s.cond
  | jmp | jsr | jsrr => exact iff_of_true rfl trivial
  | _ => exact iff_of_false Bool.false_ne_true id

/-- Of every instruction: one that is not well formed executes as its well-formed twin, which loads `pc` exactly when it
does. -/
theorem exec_pc_of_not_loadsPc {i : Instr} {s t : State} (h : exec i s = .next t) (hl : loadsPc i s = false) :
    t.pc = s.pc := by
  obtain ⟨j, hw, hexec, -, -, hloads⟩ := exec_as_wf i s
  exact (exec_facts hw (hexec ▸ h)).pc (hloads.trans hl)

/-- Settles O44: `loadsPc` names the control transfers, and an instruction that does not load `pc` keeps it. -/
theorem onlyTransfersLoadPc : Obligations.OnlyTransfersLoadPc := by
  refine fun i s => ⟨loadsPc_iff i s, fun t h ht => exec_pc_of_not_loadsPc h ?_⟩
  exact Bool.eq_false_iff.mpr fun hl => ht ((loadsPc_iff i s).mp hl)

end Sys2Proof.Machine
end

section
/-! PROOFS. The statements of 10_state.md about the condition state: which instructions write it (R17) and which read it
(R18). -/

namespace Sys2Proof.Machine

/-- Settles O40, of every instruction: one that is not well formed executes as its well-formed twin, which describes the
same register. -/
theorem onlySevenOpcodesWriteCond : Obligations.OnlySevenOpcodesWriteCond := by
  intro i s t h
  obtain ⟨j, hw, hexec, -, hflag, -⟩ := exec_as_wf i s
  rw [← hflag]
  exact (exec_facts hw (hexec ▸ h)).cond

/-! The condition state replaced: what the operations of the trap routines make of it -/

/-- The state with the condition state `c`. -/
def State.setCond (s : State) (c : Cond) : State :=
  { s with cond := c }

/-- `State.setCond` on the state a flow holds. -/
def Flow.setCond (c : Cond) : Flow → Flow
  | .goes s => .goes (s.setCond c)
  | .stops s => .stops (s.setCond c)

@[simp] theorem State.setCond_params (s : State) (c : Cond) : (s.setCond c).params = s.params := rfl
@[simp] theorem State.setCond_load (s : State) (c : Cond) (a : Word) : (s.setCond c).load a = s.load a := rfl
@[simp] theorem State.setCond_reg (s : State) (c : Cond) (r : Reg) : (s.setCond c).reg r = s.reg r := rfl
@[simp] theorem State.setCond_scanFuel (s : State) (c : Cond) : (s.setCond c).scanFuel = s.scanFuel := rfl

@[simp] theorem State.setCond_send (s : State) (c : Cond) (e : OutEvent) :
    (s.setCond c).send e = (s.send e).setCond c := by
  rw [State.send_eq, State.send_eq, apply_ite (Flow.setCond c)]
  rfl

@[simp] theorem State.setCond_sendAll (s : State) (c : Cond) (es : List OutEvent) :
    (s.setCond c).sendAll es = (s.sendAll es).setCond c := by
  induction es generalizing s with
  | nil => rfl
  | cons e es ih =>
    simp only [State.sendAll, State.setCond_send]
    cases s.send e with
    | goes t => exact ih t
    | stops t => rfl

theorem putsScan_setCond (fuel : Nat) (a : Word) (s : State) (c : Cond) :
    putsScan fuel a (s.setCond c) = (putsScan fuel a s).map (Flow.setCond c) := by
  induction fuel generalizing a s with
  | zero => rfl
  | succ fuel ih =>
    simp only [putsScan, State.setCond_load, State.setCond_send]
    split
    · rfl
    · cases s.send (.out (lowByte (s.load a))) with
      | goes t => exact ih (a + 1#16) t
      | stops t => rfl

theorem putspScan_setCond (fuel : Nat) (a : Word) (s : State) (c : Cond) :
    putspScan fuel a (s.setCond c) = (putspScan fuel a s).map (Flow.setCond c) := by
  induction fuel generalizing a s with
  | zero => rfl
  | succ fuel ih =>
    simp only [putspScan, State.setCond_load, State.setCond_send]
    split
    · rfl
    · cases s.send (.out (lowByte (s.load a))) with
      | stops t => rfl
      | goes t =>
        simp only [Flow.setCond, State.setCond_send]
        split
        · rfl
        · cases t.send (.out (highByte (s.load a))) with
          | stops u => rfl
          | goes u => exact ih (a + 1#16) u

/-! The routines that carry the condition state from the state they start in to their answer -/

/-- `f` neither reads nor writes `cond`: it answers as before when `cond` is replaced, with `cond` so replaced. -/
def CarriesCond (f : State → Result) : Prop :=
  ∀ (s : State) (c : Cond), f (s.setCond c) = withCond c (f s)

theorem CarriesCond.next {g : State → State} (hg : ∀ s c, g (s.setCond c) = (g s).setCond c) :
    CarriesCond fun s => .next (g s) :=
  fun s c => congrArg Host.Outcome.next (hg s c)

theorem CarriesCond.andThen {rest : State → Result} (h : CarriesCond rest) (f : Flow) (c : Cond) :
    (f.setCond c).andThen rest = withCond c (f.andThen rest) := by
  cases f with
  | goes t => exact h t c
  | stops t => rfl

theorem CarriesCond.takeByte {rest : Byte → State → Result} (h : ∀ b, CarriesCond (rest b)) :
    CarriesCond fun s => s.takeByte rest := by
  intro s c
  have hin : (s.setCond c).input = s.input := rfl
  simp only [State.takeByte, hin]
  cases s.input.deliver with
  | none => rfl
  | some d => exact h d.1 { s with input := d.2 } c

theorem finishString_setCond (o : Option Flow) (c : Cond) :
    finishString (o.map (Flow.setCond c)) = withCond c (finishString o) := by
  have hflush : CarriesCond fun s => (s.send .flush).andThen .next := fun s c => by
    simpa using (CarriesCond.next fun _ _ => rfl).andThen (s.send .flush) c
  cases o with
  | none => rfl
  | some f => exact hflush.andThen f c

theorem getcRoutine_carriesCond : CarriesCond getcRoutine :=
  CarriesCond.takeByte fun _ => CarriesCond.next fun _ _ => rfl

theorem outRoutine_carriesCond : CarriesCond outRoutine := by
  intro s c
  simp only [outRoutine, State.setCond_reg, State.setCond_send]
  exact (CarriesCond.next fun _ _ => rfl).andThen _ c

theorem putsRoutine_carriesCond : CarriesCond putsRoutine := by
  intro s c
  simp only [putsRoutine, State.setCond_scanFuel, State.setCond_reg, putsScan_setCond, finishString_setCond]

theorem inRoutine_carriesCond : CarriesCond inRoutine := by
  intro s c
  simp only [inRoutine, State.setCond_params, State.setCond_sendAll]
  refine (CarriesCond.takeByte fun b t d => ?_).andThen _ c
  rw [State.setCond_send]
  exact (CarriesCond.next fun _ _ => rfl).andThen _ d

theorem putspRoutine_carriesCond : CarriesCond putspRoutine := by
  intro s c
  simp only [putspRoutine, State.setCond_scanFuel, State.setCond_reg, putspScan_setCond, finishString_setCond]

theorem haltRoutine_carriesCond : CarriesCond haltRoutine := by
  intro s c
  simp only [haltRoutine, State.setCond_params, State.setCond_sendAll]
  exact (CarriesCond.next fun _ _ => rfl).andThen _ c

theorem trapDispatch_carriesCond (v : Byte) : CarriesCond (trapDispatch v) := by
  intro s c
  unfold trapDispatch
  split_ifs
  · exact getcRoutine_carriesCond s c
  · exact outRoutine_carriesCond s c
  · exact putsRoutine_carriesCond s c
  · exact inRoutine_carriesCond s c
  · exact putspRoutine_carriesCond s c
  · exact haltRoutine_carriesCond s c
  · rfl

/-! The instructions -/

/-- The seven flag-writing opcodes overwrite the condition state unread. -/
theorem exec_setCond_of_flagDest {i : Instr} {dr : Reg} (hf : flagDest i = some dr) (s : State) (c : Cond) :
    exec i (s.setCond c) = exec i s := by
  cases i with
  | addR | addI | andR | andI | notR | ld | ldi | ldr | lea => rfl
  | _ => cases hf

/-- The instructions that neither write the condition state nor branch on it carry it. -/
theorem exec_carriesCond {i : Instr} (hf : flagDest i = none) (hb : i.opcode ≠ .br) : CarriesCond (exec i) := by
  intro s c
  cases i with
  | br => exact absurd rfl hb
  | addR | addI | andR | andI | notR | ld | ldi | ldr | lea => cases hf
  | jmp | jsr | jsrr | st | sti | str | rti | res => rfl
  | trap v => exact trapDispatch_carriesCond v s.enterTrap c
  | getc => exact getcRoutine_carriesCond s.enterTrap c
  | out => exact outRoutine_carriesCond s.enterTrap c
  | puts => exact putsRoutine_carriesCond s.enterTrap c
  | inChar => exact inRoutine_carriesCond s.enterTrap c
  | putsp => exact putspRoutine_carriesCond s.enterTrap c
  | halt => exact haltRoutine_carriesCond s.enterTrap c

@[simp] theorem withCond_withCond (c d : Cond) (r : Result) : withCond d (withCond c r) = withCond d r := by
  cases r with
  | next | refused => rfl
  | fault f => cases f <;> rfl

/-- Settles O41: an instruction other than BR overwrites the condition state unread, or carries it to its answer. -/
theorem onlyBrReadsCond : Obligations.OnlyBrReadsCond := by
  intro i s c hb
  show withCond .z (exec i (s.setCond c)) = _
  cases hf : flagDest i with
  | some dr => rw [exec_setCond_of_flagDest hf]
  | none => rw [exec_carriesCond hf hb s c, withCond_withCond]

end Sys2Proof.Machine
end

section
/-! PROOFS. The statement of 20_memory.md about self-modifying code: a store and the fetch of the next step (R44). -/

namespace Sys2Proof.Machine

/-- R110 to R112, R113: a store answers the state with its one cell written. -/
theorem exec_of_storeTarget {i : Instr} {s : State} {a v : Word} (h : storeTarget i s = some (a, v)) :
    exec i s = .next (s.store a v) := by
  cases i with
  | st | sti | str => cases h; rfl
  | _ => cases h

/-- R155, R170: the end of a step, exhaustion or not, keeps memory and the latched word. -/
theorem endOfStep_keeps_mem_ir (a : Word) (i : Instr) (f t : State) :
    ∃ u, endOfStep a i f (.next t) = .next u ∧ SameMemory t u ∧ u.ir = t.ir := by
  rw [endOfStep_next]
  split
  · exact ⟨t.raiseStop .exhausted, rfl, fun _ => rfl, rfl⟩
  · exact ⟨t, rfl, fun _ => rfl, rfl⟩

/-- Settles O38: the step of a store ends with the cell written, and both a fetch and a step latch what the cell at `pc`
reads. -/
theorem nextFetchSeesTheStore : Obligations.NextFetchSeesTheStore := by
  intro s a v hrun hstore
  obtain ⟨t, hend, hload, hir⟩ :=
    endOfStep_keeps_mem_ir s.pc (decode (s.load s.pc)) s.fetch (s.fetch.store a v)
  have hstep : step s = .next t := by rw [step_running hrun, exec_of_storeTarget hstore, hend]
  have hcell : t.load a = v := by rw [hload a, State.store_load_same]
  refine ⟨t, hstep, hcell, hir, ?_⟩
  rintro rfl
  exact ⟨hcell, fun u hu => (step_ir hu).trans hcell⟩

end Sys2Proof.Machine
end

section
/-! PROOFS. The statements of 40_operate.md: ADD, AND and NOT (R80 to R84), and the addition of a sign-extended field
(R86). -/

namespace Sys2Proof.Machine

/-! Adding a sign-extended field (R86) -/

/-- The signed value of a field, by its size as a number. -/
theorem toInt_eq_ite_half {n : Nat} (f : BitVec n) :
    f.toInt = if f.toNat < 2 ^ (n - 1) then (f.toNat : Int) else (f.toNat : Int) - 2 ^ n := by
  rw [BitVec.toInt_eq_msb_cond, BitVec.msb_eq_decide]
  simp only [decide_eq_true_eq, ← not_lt, ite_not, Nat.cast_pow, Nat.cast_ofNat]

/-- Sign extension is the word of the signed value (R7), whatever the width of the field. -/
theorem sext_eq_ofInt {n : Nat} (f : BitVec n) : sext f = BitVec.ofInt 16 f.toInt := rfl

theorem add_sext_toNat {n : Nat} (x : Word) (f : BitVec n) :
    ((x + sext f).toNat : Int) = ((x.toNat : Int) + f.toInt) % 65536 := by
  have word_sum : x + sext f = BitVec.ofInt 16 ((x.toNat : Int) + f.toInt) := by
    rw [sext_eq_ofInt, BitVec.ofInt_add, BitVec.ofInt_natCast, BitVec.ofNat_toNat, BitVec.setWidth_eq]
  rw [word_sum, BitVec.toNat_ofInt]
  exact Int.toNat_of_nonneg (Int.emod_nonneg _ (by decide))

/-- Settles O2, of fields of every width, the four of the instructions among them. -/
theorem sextThenAddIsSignedAdd : Obligations.SextThenAddIsSignedAdd := by
  intro n _ f x
  rw [← toInt_eq_ite_half, add_sext_toNat]

/-! The five instructions (R80 to R84) -/

theorem exec_writesResult {i : Instr} {s : State} {dr : Reg} {v : Word} (h : exec i s = .next (s.writeResult dr v)) :
    ∃ t, exec i s = .next t ∧ WritesResult dr v s t :=
  ⟨s.writeResult dr v, h, writesResult_spec s dr v⟩

/-- Settles O4, by the decoding of the format and the one answer of the instruction. -/
theorem addRegisterForm : Obligations.AddRegisterForm :=
  fun dr sr1 sr2 u s => ⟨decode_layout_addR dr sr1 sr2 u, exec_writesResult (exec_addR dr sr1 sr2 s)⟩

/-- Settles O5, as O4. -/
theorem addImmediateForm : Obligations.AddImmediateForm :=
  fun dr sr1 imm s => ⟨decode_layout_addI dr sr1 imm, exec_writesResult (exec_addI dr sr1 imm s)⟩

/-- Settles O6, as O4. -/
theorem andRegisterForm : Obligations.AndRegisterForm :=
  fun dr sr1 sr2 u s => ⟨decode_layout_andR dr sr1 sr2 u, exec_writesResult (exec_andR dr sr1 sr2 s)⟩

/-- Settles O7, as O4; the immediate is extended before the AND. -/
theorem andImmediateForm : Obligations.AndImmediateForm :=
  fun dr sr1 imm s => ⟨decode_layout_andI dr sr1 imm, exec_writesResult (exec_andI dr sr1 imm s)⟩

/-- The complement of a word is its distance from the greatest one. -/
theorem ofNat_sub_toNat_eq_not (v : Word) : BitVec.ofNat 16 (65535 - v.toNat) = ~~~v := by
  apply BitVec.eq_of_toNat_eq
  rw [BitVec.toNat_ofNat, BitVec.toNat_not]
  omega

/-- Settles O8: the model complements the word, which is the subtraction the statement writes. -/
theorem notForm : Obligations.NotForm := by
  intro dr sr u s
  rw [ofNat_sub_toNat_eq_not]
  exact ⟨decode_layout_notR dr sr u, exec_writesResult (exec_notR dr sr s)⟩

end Sys2Proof.Machine
end

section
/-! PROOFS. The statements of 41_control.md: BR, JMP and JSR (R90 to R92). -/

namespace Sys2Proof.Machine

/-! The effects a control transfer is made of: `pc` loaded, `pc` loaded after a register was written, neither -/

theorem transfers_setPc (s : State) (target : Word) : Transfers [] target s (s.setPc target) :=
  ⟨rfl, fun _ _ => rfl, rfl, fun _ => rfl, ⟨rfl, rfl, rfl⟩, rfl, rfl, rfl, rfl⟩

theorem transfers_setReg_setPc (s : State) (r : Reg) (v target : Word) :
    Transfers [r] target s ((s.setReg r v).setPc target) :=
  ⟨rfl, s.setReg_except r v (List.mem_singleton_self r), rfl, fun _ => rfl, ⟨rfl, rfl, rfl⟩, rfl, rfl, rfl, rfl⟩

theorem transfers_refl (s : State) : Transfers [] s.pc s s :=
  transfers_setPc s s.pc

/-! The three instructions -/

/-- Settles O9: the condition of the statement is the one the model branches on, and decides between `pc` loaded and the
state unchanged. -/
theorem branchOnCondition : Obligations.BranchOnCondition := by
  intro n z p off s
  refine ⟨decode_layout_br n z p off, _, exec_br n z p off s, ?_⟩
  rw [← branchTaken_iff]
  constructor
  · intro taken
    rw [if_pos taken]
    exact ⟨taken, transfers_setPc s (s.pcRelative off)⟩
  · intro not_taken
    rw [if_neg not_taken]
    exact ⟨Bool.eq_false_iff.mpr not_taken, transfers_refl s⟩

/-- Settles O10, by the decoding of the format and the one answer of the instruction. -/
theorem jumpThroughRegister : Obligations.JumpThroughRegister :=
  fun base u u' s => ⟨decode_layout_jmp base u u', _, exec_jmp base s, transfers_setPc s (s.reg base)⟩

/-- Settles O11, as O10; the link is the `pc` that the target is relative to. -/
theorem jumpToSubroutine : Obligations.JumpToSubroutine :=
  fun off s => ⟨decode_layout_jsr off, _, exec_jsr off s, s.setReg_reg_same .r7 s.pc,
    transfers_setReg_setPc s .r7 s.pc (s.pcRelative11 off)⟩

end Sys2Proof.Machine
end

section
/-! PROOFS. The statements of 42_load.md: LD, LDI, LDR and LEA (R100 to R103). The addresses the statements write out are
the addressing modes of R104 (`pcRelative`, `indirect`, `baseOffset`), unfolded. -/

namespace Sys2Proof.Machine

/-- Settles O13, by the decoding of the format and the one answer of the instruction. -/
theorem loadPcRelative : Obligations.LoadPcRelative :=
  fun dr off s => ⟨decode_layout_ld dr off, exec_writesResult (exec_ld dr off s)⟩

/-- Settles O14, as O13; the pointer is itself a datum of the state before DR is written. -/
theorem loadIndirect : Obligations.LoadIndirect :=
  fun dr off s => ⟨decode_layout_ldi dr off, exec_writesResult (exec_ldi dr off s)⟩

/-- Settles O15, as O13; the base is read before DR is written, so DR may be the base. -/
theorem loadBaseOffset : Obligations.LoadBaseOffset :=
  fun dr base off s => ⟨decode_layout_ldr dr base off, exec_writesResult (exec_ldr dr base off s)⟩

/-- Settles O16, as O13; the result is the address itself. -/
theorem loadEffectiveAddress : Obligations.LoadEffectiveAddress :=
  fun dr off s => ⟨decode_layout_lea dr off, exec_writesResult (exec_lea dr off s)⟩

end Sys2Proof.Machine
end

section
/-! PROOFS. The statements of 43_store.md: ST, STI and STR (R110 to R112). The addresses the statements write out are
those of `storeTarget`, which are the addressing modes of R104. -/

namespace Sys2Proof.Machine

/-- R113: what every store does and leaves unchanged, whichever way it forms its address. -/
theorem exec_writesCell {i : Instr} {s : State} {a v : Word} (h : storeTarget i s = some (a, v)) :
    ∃ t, exec i s = .next t ∧ WritesCell a v s t :=
  ⟨s.store a v, exec_of_storeTarget h, writesCell_spec s a v⟩

/-- Settles O17, by the decoding of the format and the cell it targets. -/
theorem storePcRelative : Obligations.StorePcRelative :=
  fun sr off _ => ⟨decode_layout_st sr off, exec_writesCell rfl⟩

/-- Settles O19, as O17; the source may be the base. -/
theorem storeBaseOffset : Obligations.StoreBaseOffset :=
  fun sr base off _ => ⟨decode_layout_str sr base off, exec_writesCell rfl⟩

/-! The round trip of STI (R111): an LDI finds the datum wherever its pointer cell leads -/

theorem exec_ldi_reg_of_load {s : State} {off : BitVec 9} {a v : Word} (dr : Reg)
    (pointer : s.load (s.pc + off.signExtend 16) = a) (datum : s.load a = v) :
    ∃ t, exec (.ldi dr off) s = .next t ∧ t.reg dr = v := by
  obtain ⟨-, t, hexec, hreg, -⟩ := loadIndirect dr off s
  exact ⟨t, hexec, by rw [hreg, pointer, datum]⟩

/-- Settles O18: the cell written is the datum of every later LDI whose pointer cell holds its address. A changed `pc`
changes no cell. -/
theorem storeIndirect : Obligations.StoreIndirect := by
  intro sr off s
  obtain ⟨t, hexec, hwrites⟩ := exec_writesCell (i := .sti sr off) (s := s) rfl
  have datum : t.load (s.load (s.pc + off.signExtend 16)) = s.reg sr := hwrites.1
  exact ⟨decode_layout_sti sr off, t, hexec, hwrites,
    fun dr _ pc' pointer => exec_ldi_reg_of_load (s := { t with pc := pc' }) dr pointer datum⟩

end Sys2Proof.Machine
end

section
/-! PROOFS. The statements of 44_trap.md about every TRAP: what its entry and its routines keep (R120, R122), and the stop
of a vector without a service (R129). -/

namespace Sys2Proof.Machine

/-! What keeps the effect of the entry: requests, a stop, a byte taken, and a write of R0 (R120, R122) -/

theorem EntersTrap.sent {s t : State} (h : EntersTrap s t) (es : List OutEvent) : EntersTrap s (t.sent es) := h

theorem EntersTrap.raiseStop {s t : State} (h : EntersTrap s t) (c : StopCause) : EntersTrap s (t.raiseStop c) := h

theorem EntersTrap.withInput {s t : State} (h : EntersTrap s t) (rest : InputSource) :
    EntersTrap s { t with input := rest } := h

theorem EntersTrap.setReg_r0 {s t : State} (h : EntersTrap s t) (v : Word) : EntersTrap s (t.setReg .r0 v) := by
  obtain ⟨link, regs, rest⟩ := h
  exact ⟨link, fun r hr => (t.setReg_except .r0 v (by simp) r hr).trans (regs r hr), rest⟩

/-! Vectors with a service and without (R121, R129) -/

theorem isServiceVector_iff (v : Byte) : isServiceVector v = true ↔ 0x20 ≤ v.toNat ∧ v.toNat ≤ 0x25 := by
  simp only [isServiceVector, Bool.or_eq_true, beq_iff_eq, ← BitVec.toNat_inj, BitVec.toNat_ofNat]
  omega

theorem not_service_of_outside {v : Byte} (h : v.toNat < 0x20 ∨ 0x25 < v.toNat) : isServiceVector v = false := by
  rw [Bool.eq_false_iff, ne_eq, isServiceVector_iff]
  omega

theorem decodeTrap_of_not_service {v : Byte} (h : isServiceVector v = false) : decodeTrap v = .trap v := by
  simp_all [isServiceVector, decodeTrap]

/-- R120, R129 at a step: a stop is raised, so the top of memory makes no difference. -/
theorem step_unknownTrap {s : State} {v : Byte} (hrun : s.run = .running) (hv : isServiceVector v = false)
    (hdecode : decode (s.load s.pc) = .trap v) :
    step s = .next (s.fetch.enterTrap.raiseStop .unknownTrap) := by
  rw [step_running hrun, hdecode, exec_trap_of_not_service hv, endOfStep_halted _ _ _ rfl]

/-- Settles O22: execution enters the trap and stops, and the record's fields are those of the fetched word. -/
theorem unknownTrapStops : Obligations.UnknownTrapStops := by
  intro u v s outside
  have hv := not_service_of_outside outside
  have hdecode : decode (0b1111#4 ++ u ++ v) = .trap v :=
    (decode_layout_trap u v).trans (decodeTrap_of_not_service hv)
  refine ⟨hdecode, ⟨_, exec_trap_of_not_service hv s, rfl, (entersTrap_spec s).raiseStop _, rfl, rfl, rfl, rfl, rfl⟩,
    fun hrun hword => ?_⟩
  have hstep := step_unknownTrap hrun hv (hword ▸ hdecode)
  have hvector : field (s.load s.pc) 0 8 = v := by rw [hword, field_vector_of_trap]
  have hopcode : field (s.load s.pc) 12 4 = 15#4 := by rw [hword, field_op_of_trap]
  exact ⟨_, _, hstep, rfl, rfl, hvector, hopcode, pc_back s.pc, rfl, rfl, rfl, s.fetch.enterTrap_except (by simp), rfl,
    fun _ => rfl, rfl, rfl, rfl, rfl⟩

/-! The states that the routines answer (R122, R131) -/

/-- The state that an answer shows: the next state, or the one in which the machine waits for input (log 4). -/
def Shows (r : Result) (t : State) : Prop :=
  r = .next t ∨ r = .fault (.blockedOnInput t)

@[simp] theorem shows_next (u t : State) : Shows (.next u) t ↔ u = t := by simp [Shows]

@[simp] theorem shows_blockedOnInput (u t : State) : Shows (.fault (.blockedOnInput u)) t ↔ u = t := by simp [Shows]

@[simp] theorem not_shows_endlessString (t : State) : ¬Shows (.fault .endlessString) t := by simp [Shows]

theorem RoutineEnds.entersTrap_keeps_r0 {s t : State} {r : Result} (h : RoutineEnds s.enterTrap r) (ht : Shows r t) :
    EntersTrap s t ∧ t.reg .r0 = s.reg .r0 := by
  rcases h with ⟨es, rfl, -⟩ | ⟨es, rfl, -⟩ <;> obtain rfl := (shows_next ..).mp ht
  · exact ⟨(entersTrap_spec s).sent es, rfl⟩
  · exact ⟨((entersTrap_spec s).sent es).raiseStop _, rfl⟩

/-- PUTS and PUTSP: a string without end shows no state (R131). -/
theorem string_entersTrap_keeps_r0 {s t : State} {r : Result} {p : Prop}
    (h : (r = .fault .endlessString ∧ p) ∨ RoutineEnds s.enterTrap r) (ht : Shows r t) :
    EntersTrap s t ∧ t.reg .r0 = s.reg .r0 := by
  rcases h with ⟨rfl, -⟩ | ends
  · exact absurd ht (not_shows_endlessString t)
  · exact ends.entersTrap_keeps_r0 ht

theorem execGetc_entersTrap {s t : State} (ht : Shows (exec .getc s) t) : EntersTrap s t := by
  rcases execGetc_cases s with ⟨-, hx⟩ | ⟨c, rest, -, hx⟩ <;> rw [hx] at ht
  · obtain rfl := (shows_blockedOnInput ..).mp ht
    exact entersTrap_spec s
  · obtain rfl := (shows_next ..).mp ht
    exact ((entersTrap_spec s).withInput rest).setReg_r0 _

theorem execIn_entersTrap {s t : State} (ht : Shows (exec .inChar s) t) : EntersTrap s t := by
  have entered := entersTrap_spec s
  rcases execIn_cases s with ⟨es, hx, -⟩ | ⟨-, -, hx⟩ | ⟨c, rest, -, ⟨es, hx, -⟩ | ⟨es, hx, -⟩⟩ <;> rw [hx] at ht
  · obtain rfl := (shows_next ..).mp ht
    exact (entered.sent es).raiseStop _
  · obtain rfl := (shows_blockedOnInput ..).mp ht
    exact entered.sent _
  · obtain rfl := (shows_next ..).mp ht
    exact ((entered.withInput rest).sent es).raiseStop _
  · obtain rfl := (shows_next ..).mp ht
    exact ((entered.withInput rest).sent es).setReg_r0 _

theorem execHalt_entersTrap_keeps_r0 {s t : State} (ht : Shows (exec .halt s) t) :
    EntersTrap s t ∧ t.reg .r0 = s.reg .r0 := by
  rcases execHalt_cases s with ⟨hx, -⟩ | ⟨es, hx, -⟩ <;> rw [hx] at ht <;> obtain rfl := (shows_next ..).mp ht
  · exact ⟨((entersTrap_spec s).sent _).raiseStop _, rfl⟩
  · exact ⟨((entersTrap_spec s).sent es).raiseStop _, rfl⟩

/-- A well-formed TRAP has no service, so the stop is all that follows the entry (R129). -/
theorem execTrap_entersTrap_keeps_r0 {v : Byte} {s t : State} (hw : (Instr.trap v).wf = true)
    (ht : Shows (exec (.trap v) s) t) : EntersTrap s t ∧ t.reg .r0 = s.reg .r0 := by
  rw [exec_trap_of_not_service (by simpa [Instr.wf] using hw)] at ht
  obtain rfl := (shows_next ..).mp ht
  exact ⟨(entersTrap_spec s).raiseStop _, rfl⟩

/-- Settles O43, routine by routine: GETC and IN take a byte into R0, the others only send and stop after the entry. -/
theorem trapSideEffectsAreConfined : Obligations.TrapSideEffectsAreConfined := by
  intro i s t hw ho ht
  cases i with
  | getc => exact ⟨execGetc_entersTrap ht, fun h => absurd rfl h⟩
  | inChar => exact ⟨execIn_entersTrap ht, fun _ h => absurd rfl h⟩
  | out => exact ((execOut_cases s).entersTrap_keeps_r0 ht).imp_right fun keeps _ _ => keeps
  | puts => exact (string_entersTrap_keeps_r0 (execPuts_cases s) ht).imp_right fun keeps _ _ => keeps
  | putsp => exact (string_entersTrap_keeps_r0 (execPutsp_cases s) ht).imp_right fun keeps _ _ => keeps
  | halt => exact (execHalt_entersTrap_keeps_r0 ht).imp_right fun keeps _ _ => keeps
  | trap v => exact (execTrap_entersTrap_keeps_r0 hw ht).imp_right fun keeps _ _ => keeps
  | _ => cases ho

end Sys2Proof.Machine
end

section
/-! PROOFS. The statements of 45_reserved.md: the reserved opcodes RTI and RES (R140, R141). Both are proved at once, of a
reserved opcode `op` whose words decode to an instruction `i` that answers the stop. -/

namespace Sys2Proof.Machine

/-- R140, R141 at a step: a stop is raised, so the top of memory makes no difference. -/
theorem step_reservedOpcode {i : Instr} {s : State} (hrun : s.run = .running) (hdecode : decode (s.load s.pc) = i)
    (hexec : ∀ f, exec i f = .next (f.raiseStop .reservedOpcode)) :
    step s = .next (s.fetch.raiseStop .reservedOpcode) := by
  rw [step_running hrun, hdecode, hexec, endOfStep_halted _ _ _ rfl]

/-- Of `exec` and of `step`: the record's fields are those of the fetched word, and the frame is that of `raiseStop`. -/
theorem reservedOpcode_stops {op : BitVec 4} {i : Instr} (hdecode : ∀ u : BitVec 12, decode (op ++ u) = i)
    (hexec : ∀ s, exec i s = .next (s.raiseStop .reservedOpcode)) (u : BitVec 12) (s : State) :
    decode (op ++ u) = i ∧
    (∃ t, exec i s = .next t ∧ t.run = .halted ∧ SameRegsExcept [] s t ∧ t.cond = s.cond ∧ t.pc = s.pc ∧
      SameMemory s t ∧ SameStreams s t) ∧
    (s.run = .running → s.load s.pc = op ++ u →
      ∃ t r, step s = .next t ∧ t.stop = some r ∧ r.cause = .reservedOpcode ∧ r.opcode = op ∧ r.address = s.pc ∧
        r.vector = u.setWidth 8 ∧ t.run = .halted ∧ t.pc = s.pc + 1#16 ∧ SameRegsExcept [] s t ∧ t.cond = s.cond ∧
        SameMemory s t ∧ SameStreams s t) := by
  refine ⟨hdecode u, ⟨_, hexec s, rfl, fun _ _ => rfl, rfl, rfl, fun _ => rfl, rfl, rfl, rfl, rfl⟩,
    fun hrun hword => ?_⟩
  have hstep := step_reservedOpcode hrun (hword ▸ hdecode u) hexec
  have hopcode : field (s.load s.pc) 12 4 = op := by rw [hword, field_op_of_append]
  have hvector : field (s.load s.pc) 0 8 = u.setWidth 8 := by rw [hword, field_vector_of_append]
  exact ⟨_, _, hstep, rfl, rfl, hopcode, pc_back s.pc, hvector, rfl, rfl, fun _ _ => rfl, rfl, fun _ => rfl, rfl, rfl,
    rfl, rfl⟩

/-- Settles O20: opcode 8 is reserved. -/
theorem rtiStops : Obligations.RtiStops :=
  reservedOpcode_stops decode_layout_rti exec_rti

/-- Settles O21: opcode 13 is reserved, as opcode 8. -/
theorem resStops : Obligations.ResStops :=
  reservedOpcode_stops decode_layout_res exec_res

end Sys2Proof.Machine
end

section
/-! PROOFS. The invariant (10_state.md R20; 60_exceptions.md R170, R171, R175): it holds after reset, and every step keeps
it. -/

namespace Sys2Proof.Machine

/-! The record of a stop fits the word that was decoded (R171) -/

/-- The vector field of a TRAP word, by the word that its decoding is written as. -/
theorem field_vector_of_decode_trap {w : Word} (h : (decode w).opcode = .trap) :
    field w 0 8 = field (encode (decode w)) 0 8 := by
  rw [decode_of_trap h, encode_decodeTrap, encodeTrap, field_vector_of_trap]

theorem field_op_eq_opcode_bits (w : Word) : field w 12 4 = (decode w).opcode.bits :=
  field_op_of_decode rfl

theorem causeFits_of_stopCauses {w : Word} {c : StopCause} (h : c ∈ stopCauses (decode w)) (a : Word) :
    StopRecord.causeFits ⟨c, a, field w 12 4, field w 0 8⟩ := by
  have opcode := field_op_eq_opcode_bits w
  have vector := field_vector_of_decode_trap (w := w)
  have wf := decode_wf w
  cases hd : decode w with
  | rti | res =>
    rw [hd] at h opcode
    obtain rfl := List.mem_singleton.mp h
    simp [StopRecord.causeFits, opcode, Instr.opcode, Opcode.bits]
  | trap v =>
    rw [hd] at h opcode vector wf
    obtain rfl := List.mem_singleton.mp h
    have hv : field w 0 8 = v := (vector rfl).trans (field_vector_of_trap ..)
    exact ⟨opcode, by simpa [hv, Instr.wf] using wf⟩
  | out | puts | inChar | putsp =>
    rw [hd] at h opcode vector
    obtain rfl := List.mem_singleton.mp h
    rw [opcode, vector rfl]
    simp only [StopRecord.causeFits]
    decide
  | halt =>
    rw [hd] at h opcode vector
    rw [opcode, vector rfl]
    obtain rfl | rfl : c = .halt ∨ c = .ioFailure := by simpa [stopCauses] using h
    · simp only [StopRecord.causeFits]; decide
    · simp only [StopRecord.causeFits]; decide
  | _ => rw [hd] at h; cases h

/-! Each part of the invariant after an instruction and after the end of the step -/

theorem ExecFacts.mem_wf {i : Instr} {s t : State} (h : ExecFacts i s t) (hs : s.mem.wf) : t.mem.wf := by
  rw [h.mem]
  cases storeTarget i s with
  | none => exact hs
  | some cell => exact s.mem.write_wf cell.1 cell.2 hs

/-- An instruction that stops keeps `pc`, so the record names the word in `ir` and the cell it was fetched from. -/
theorem StopsWith.describes {i : Instr} {c : StopCause} {s t : State} (h : StopsWith c s t) (hf : ExecFacts i s t)
    (hc : c ∈ stopCauses i) (hi : i = decode s.ir) : ∀ r, t.stop = some r → r.describes t := by
  obtain ⟨-, hstop⟩ := h
  intro r hr
  obtain rfl := Option.some.inj (hstop.symm.trans hr)
  have hpc : t.pc = s.pc := hf.pc (stopCauses_loadsPc hc s)
  subst hi
  refine ⟨?_, by rw [hf.ir], by rw [hf.ir], causeFits_of_stopCauses hc _⟩
  rw [hpc, BitVec.add_assoc]; simp

/-- Executing the word in `ir` keeps the invariant, from a state that runs. -/
theorem ExecFacts.keeps_inv {s t : State} (h : ExecFacts (decode s.ir) s t) (hmem : s.mem.wf)
    (hrun : s.run = .running) (hstop : s.stop = none) : t.Inv := by
  refine ⟨h.mem_wf hmem, ?_⟩
  rcases h.stop with ⟨run, stop⟩ | ⟨c, hc, stops⟩
  · rw [hrun] at run
    rw [hstop] at stop
    exact ⟨iff_of_true run stop, fun r hr => by rw [stop] at hr; cases hr⟩
  · exact ⟨by simp [stops.1, stops.2], stops.describes h hc rfl⟩

/-- EXHAUSTED at the end of a step: the instruction at the top of memory has not loaded `pc`, which wrapped to 0. -/
theorem raiseStop_exhausted_inv {u : State} (hmem : u.mem.wf) (hpc : u.pc = 0#16) :
    (u.raiseStop .exhausted).Inv := by
  refine ⟨hmem, by simp, fun r hr => ?_⟩
  obtain rfl := Option.some.inj hr
  simp [StopRecord.describes, StopRecord.causeFits, hpc]

/-- Settles O48: an instruction keeps the invariant, whether or not it stops the run, and so does exhaustion. -/
theorem stepKeepsTheInvariant : Obligations.StepKeepsTheInvariant := by
  rintro s t ⟨hmem, hiff, -⟩ hstep
  obtain ⟨hrun, u, facts, end_of_step⟩ := step_facts hstep
  rcases end_of_step with ⟨hpc, hload, -, rfl⟩ | rfl
  · have upc : u.pc = 0#16 := by rw [facts.pc hload, State.fetch_pc, hpc]; rfl
    exact raiseStop_exhausted_inv (facts.mem_wf hmem) upc
  · exact ExecFacts.keeps_inv (s := s.fetch) facts hmem hrun (hiff.mp hrun)

/-- Settles O49: memory is empty, and there is neither a stop nor its record. -/
theorem resetMeetsTheInvariant : Obligations.ResetMeetsTheInvariant :=
  ⟨State.reset_mem_wf, iff_of_true rfl rfl, fun _ hr => by cases hr⟩

end Sys2Proof.Machine
end

section
/-! PROOFS. The statements of 30_encoding.md: the encoder and the decoder (R53, R55, R64), the rows of the opcode table
(R65), and sample words. -/

namespace Sys2Proof

/-- Settles O53, format by format: the encoding is the layout of the format, with the encoder's choice of unused bits. -/
theorem decodeInvertsEncode : Obligations.DecodeInvertsEncode := by
  intro i hw
  cases i with
  | br n z p off => exact decode_layout_br n z p off
  | addR dr sr1 sr2 => exact decode_layout_addR dr sr1 sr2 _
  | addI dr sr1 imm => exact decode_layout_addI dr sr1 imm
  | ld dr off => exact decode_layout_ld dr off
  | st sr off => exact decode_layout_st sr off
  | jsr off => exact decode_layout_jsr off
  | jsrr base => exact decode_layout_jsrr base _ _
  | andR dr sr1 sr2 => exact decode_layout_andR dr sr1 sr2 _
  | andI dr sr1 imm => exact decode_layout_andI dr sr1 imm
  | ldr dr base off => exact decode_layout_ldr dr base off
  | str sr base off => exact decode_layout_str sr base off
  | rti => exact decode_layout_rti _
  | notR dr sr => exact decode_layout_notR dr sr _
  | ldi dr off => exact decode_layout_ldi dr off
  | sti sr off => exact decode_layout_sti sr off
  | jmp base => exact decode_layout_jmp base _ _
  | res => exact decode_layout_res _
  | lea dr off => exact decode_layout_lea dr off
  | trap v =>
    have hv : isServiceVector v = false := by simpa [Instr.wf] using hw
    exact (decode_layout_trap _ v).trans (decodeTrap_of_not_service hv)
  | getc | out | puts | inChar | putsp | halt => exact decode_layout_trap _ _

/-! Changing unused bits (R55) -/

/-- `w` with the bits changed that `u` sets within `m`: what the statement about unused bits does to a word. -/
def flipWithin (w u m : Word) : Word :=
  w ^^^ (u &&& m)

@[simp] theorem flipWithin_zero (w u : Word) : flipWithin w u 0#16 = w := by
  simp [flipWithin]

theorem flipWithin_getLsbD (w u : Word) {m : Word} {i : Nat} (h : m.getLsbD i = false) :
    (flipWithin w u m).getLsbD i = w.getLsbD i := by
  simp [flipWithin, h]

theorem field_flipWithin (w u : Word) {m : Word} {lo n : Nat} (h : field m lo n = 0#n) :
    field (flipWithin w u m) lo n = field w lo n := by
  apply BitVec.eq_of_getLsbD_eq
  intro i hi
  rw [getLsbD_field _ _ _ _ hi, getLsbD_field _ _ _ _ hi]
  exact flipWithin_getLsbD w u (by rw [getLsbD_of_field h hi]; simp)

theorem field_op_unusedBits (f : Form) : field f.unusedBits 12 4 = 0#4 := by
  cases f <;> rfl

/-- Settles O55: `decode` looks at fields that its form does not mark unused, the opcode first. -/
theorem unusedBitsAreIgnored : Obligations.UnusedBitsAreIgnored := by
  intro w u
  show decode (flipWithin w u (decode w).form.unusedBits) = decode w
  have hop := field_flipWithin w u (field_op_unusedBits (decode w).form)
  generalize hm : (decode w).form.unusedBits = m at hop ⊢
  cases ho : Opcode.ofBits (field w 12 4) with
  | br | ld | st | ldr | str | ldi | sti | lea =>
    obtain rfl : 0#16 = m := by simpa only [decode, ho, Instr.form, Form.unusedBits] using hm
    rw [flipWithin_zero]
  | rti | res => simp only [decode, hop, ho]
  | not | jmp =>
    simp only [decode, ho, Instr.form, Form.unusedBits] at hm
    subst hm
    simp (disch := decide) only [decode, hop, ho, field_flipWithin]
  | trap =>
    simp only [decode, ho, decodeTrap_form, Form.unusedBits] at hm
    subst hm
    simp (disch := decide) only [decode, hop, ho, field_flipWithin]
  | jsr =>
    cases h11 : w.getLsbD 11 with
    | true =>
      obtain rfl : 0#16 = m := by simpa only [decode, ho, h11, if_true, Instr.form, Form.unusedBits] using hm
      rw [flipWithin_zero]
    | false =>
      simp only [decode, ho, h11, Bool.false_eq_true, if_false, Instr.form, Form.unusedBits] at hm
      subst hm
      simp (disch := decide) only [decode, hop, ho, field_flipWithin, flipWithin_getLsbD, h11, Bool.false_eq_true,
        if_false]
  | add | and =>
    cases h5 : w.getLsbD 5 with
    | true =>
      obtain rfl : 0#16 = m := by simpa only [decode, ho, h5, if_true, Instr.form, Form.unusedBits] using hm
      rw [flipWithin_zero]
    | false =>
      simp only [decode, ho, h5, Bool.false_eq_true, if_false, Instr.form, Form.unusedBits] at hm
      subst hm
      simp (disch := decide) only [decode, hop, ho, field_flipWithin, flipWithin_getLsbD, h5, Bool.false_eq_true,
        if_false]

/-! Encoding a decoded word (R55, R64) -/

/-- Words that agree bit by bit wherever `m` does not mark the bit. -/
theorem xor_and_not_eq_zero {x y m : Word} (h : ∀ i < 16, m.getLsbD i = false → x.getLsbD i = y.getLsbD i) :
    (x ^^^ y) &&& ~~~m = 0#16 := by
  apply BitVec.eq_of_getLsbD_eq
  intro i hi
  cases hm : m.getLsbD i with
  | true => simp [hm]
  | false => simp [h i hi hm]

/-- Settles O54: each bit of the encoding is a bit of a field that was decoded, a fixed bit of the format, or unused. -/
theorem encodeChangesOnlyUnusedBits : Obligations.EncodeChangesOnlyUnusedBits := by
  refine fun w => ⟨decode_wf w, xor_and_not_eq_zero fun i hi => ?_⟩
  have hop := (Opcode.bits_ofBits (field w 12 4)).symm
  cases ho : Opcode.ofBits (field w 12 4) with
  | br | ld | st | ldr | str | ldi | sti | lea | not | jmp | rti | res =>
    simp only [ho, Opcode.bits] at hop
    simp only [decode, ho, Instr.form, Form.unusedBits, encode, Reg.bits_ofBits, ← hop]
    simp only [field, BitVec.getLsbD_append, BitVec.getLsbD_extractLsb', BitVec.getLsbD_ofBool]
    interval_cases i <;> simp
  | trap =>
    simp only [ho, Opcode.bits] at hop
    simp only [decode, ho, Form.unusedBits, encode_decodeTrap, decodeTrap_form, encodeTrap, ← hop]
    simp only [field, BitVec.getLsbD_append, BitVec.getLsbD_extractLsb']
    interval_cases i <;> simp
  | jsr =>
    simp only [ho, Opcode.bits] at hop
    cases h11 : w.getLsbD 11 with
    | true | false =>
      simp only [decode, ho, h11, Bool.false_eq_true, if_false, if_true, Instr.form, Form.unusedBits, encode,
        Reg.bits_ofBits, ← hop]
      simp only [field, BitVec.getLsbD_append, BitVec.getLsbD_extractLsb']
      rw [BitVec.getLsbD_eq_getElem (by decide)] at h11
      interval_cases i <;> simp [h11]
  | add | and =>
    simp only [ho, Opcode.bits] at hop
    cases h5 : w.getLsbD 5 with
    | true | false =>
      simp only [decode, ho, h5, Bool.false_eq_true, if_false, if_true, Instr.form, Form.unusedBits, encode,
        Reg.bits_ofBits, ← hop]
      simp only [field, BitVec.getLsbD_append, BitVec.getLsbD_extractLsb']
      rw [BitVec.getLsbD_eq_getElem (by decide)] at h5
      interval_cases i <;> simp [h5]

/-! The rows of the opcode table (R65): a row looks at the opcode, bit 11 and bit 5 at the most, and so does the form -/

/-- A word with every bit 0 that no row of the opcode table looks at. -/
def rowBits (w : Word) : Word :=
  w &&& 0xF820#16

theorem rowBits_eq_append (w : Word) :
    rowBits w = field w 12 4 ++ BitVec.ofBool (w.getLsbD 11) ++ 0#5 ++ BitVec.ofBool (w.getLsbD 5) ++ 0#5 := by
  apply BitVec.eq_of_getLsbD_eq
  intro i hi
  simp only [rowBits, field, BitVec.getLsbD_append, BitVec.getLsbD_extractLsb', BitVec.getLsbD_ofBool]
  interval_cases i <;> simp

theorem mask_subset_rowBits : ∀ row ∈ opcodeRows, 0xF820#16 &&& row.mask = row.mask := by decide

theorem selects_rowBits {row : OpcodeRow} (h : row ∈ opcodeRows) (w : Word) :
    row.selects (rowBits w) = row.selects w := by
  simp only [OpcodeRow.selects, rowBits, BitVec.and_assoc, mask_subset_rowBits row h]

theorem form_rowBits (w : Word) : (decode (rowBits w)).form = (decode w).form := by
  have hop : field (rowBits w) 12 4 = field w 12 4 := by
    apply BitVec.eq_of_getLsbD_eq
    intro i hi
    simp only [rowBits, getLsbD_field _ _ _ _ hi, BitVec.getLsbD_and]
    interval_cases i <;> simp
  have h11 : (rowBits w).getLsbD 11 = w.getLsbD 11 := by simp [rowBits]
  have h5 : (rowBits w).getLsbD 5 = w.getLsbD 5 := by simp [rowBits]
  cases ho : Opcode.ofBits (field w 12 4) with
  | add | and => simp only [decode, hop, ho, h5]; split <;> rfl
  | jsr => simp only [decode, hop, ho, h11]; split <;> rfl
  | trap => simp only [decode, hop, ho, decodeTrap_form]
  | _ => simp only [decode, hop, ho, Instr.form]

/-- The table and the decoder on the 64 words that the rows can tell apart. -/
theorem selects_iff_form_of_row_bits : ∀ row ∈ opcodeRows, ∀ (op : BitVec 4) (b11 b5 : Bool),
    row.selects (op ++ BitVec.ofBool b11 ++ 0#5 ++ BitVec.ofBool b5 ++ 0#5) = true ↔
      (decode (op ++ BitVec.ofBool b11 ++ 0#5 ++ BitVec.ofBool b5 ++ 0#5)).form = row.form := by
  decide

/-- Settles O56: the bits that a row looks at are also those that the form depends on. -/
theorem opcodeRowsPartitionTheWords : Obligations.OpcodeRowsPartitionTheWords := by
  refine ⟨fun w row h => ?_, fun f => by cases f <;> rfl⟩
  rw [← selects_rowBits h, ← form_rowBits, rowBits_eq_append]
  exact selects_iff_form_of_row_bits row h _ _ _

/-- Settles O57, by running the decoder. -/
theorem sampleWordsDecode : Obligations.SampleWordsDecode := by
  unfold Obligations.SampleWordsDecode
  decide

end Sys2Proof
end

section
/-! PROOFS. The statement of 20_memory.md about the canonical form of memory (R32; log 1). -/

namespace Sys2Proof.Machine

/-! A canonical memory lists exactly the cells that do not read as 0x0000 -/

theorem Memory.lookup_of_mem {m : Memory} (h : m.Pairwise (fun c d => c.1 < d.1)) {c : Nat × Word} (hc : c ∈ m) :
    m.lookup c.1 = c.2 := by
  induction m with
  | nil => cases hc
  | cons d m ih =>
    obtain ⟨first, rest⟩ := List.pairwise_cons.mp h
    rcases List.mem_cons.mp hc with rfl | hc
    · simp [Memory.lookup]
    · rw [Memory.lookup, if_neg (first c hc).ne, ih rest hc]

theorem Memory.mem_of_lookup {m : Memory} {a : Nat} (h : m.lookup a ≠ 0#16) : (a, m.lookup a) ∈ m := by
  induction m with
  | nil => exact absurd rfl h
  | cons d m ih =>
    rw [Memory.lookup] at h ⊢
    split at h
    · next heq => subst heq; simp
    · next hne => rw [if_neg hne]; exact List.mem_cons_of_mem d (ih h)

theorem Memory.mem_iff_read {m : Memory} (h : m.wf) (a : Nat) (v : Word) :
    (a, v) ∈ m ↔ a < 65536 ∧ v ≠ 0#16 ∧ m.read (BitVec.ofNat 16 a) = v := by
  obtain ⟨rising, cells⟩ := h
  constructor
  · intro hc
    obtain ⟨inSpace, nonzero⟩ := cells _ hc
    have ha : (BitVec.ofNat 16 a).toNat = a := Nat.mod_eq_of_lt inSpace
    exact ⟨inSpace, nonzero, by rw [Memory.read, ha, Memory.lookup_of_mem rising hc]⟩
  · rintro ⟨inSpace, nonzero, rfl⟩
    have ha : (BitVec.ofNat 16 a).toNat = a := Nat.mod_eq_of_lt inSpace
    rw [Memory.read, ha] at nonzero ⊢
    exact Memory.mem_of_lookup nonzero

/-- Settles O3: the reads decide which cells are listed, and rising addresses decide their order. -/
theorem canonicalMemoryIsDeterminedByItsReads : Obligations.CanonicalMemoryIsDeterminedByItsReads := by
  intro m m' hm hm' reads
  have irrefl : Std.Irrefl fun c d : Nat × Word => c.1 < d.1 := ⟨fun c => lt_irrefl c.1⟩
  have antisymm : Std.Antisymm fun c d : Nat × Word => c.1 < d.1 := ⟨fun _ _ h h' => absurd h' h.not_gt⟩
  refine hm.1.eq_of_mem_iff hm'.1 fun c => ?_
  rw [Memory.mem_iff_read hm, Memory.mem_iff_read hm', reads]

end Sys2Proof.Machine
end

section
/-! PROOFS. The statement of 41_control.md about JSRR (R93). -/

namespace Sys2Proof.Machine

/-- Settles O12: the base is read in the state whose R7 is already the link (D5). -/
theorem jumpToSubroutineThroughRegister : Obligations.JumpToSubroutineThroughRegister := by
  intro base u u' s
  refine ⟨decode_layout_jsrr base u u', _, exec_jsrr base s, s.setReg_reg_same .r7 s.pc, ?_⟩
  rw [s.setReg_reg .r7 base s.pc]
  exact transfers_setReg_setPc s .r7 s.pc _

end Sys2Proof.Machine
end

section
/-! PROOFS. The statements of 70_reset_and_hazards.md: the values after reset (R200), the loader's contract (R203) and
the image file (R205). -/

namespace Sys2Proof.Machine

/-! Reset (R200) -/

/-- Settles O50, register by register. -/
theorem resetValues : Obligations.ResetValues :=
  ⟨fun r => by cases r <;> rfl, rfl, rfl, fun _ => rfl, rfl, rfl, rfl⟩

/-! The loader (R203, R205) -/

/-- Settles O51: the reads are those of the filled memory, and no other field but `pc` is written. -/
theorem loadImageContract : Obligations.LoadImageContract := by
  refine fun s origin image => ⟨fun fits => ?_, fun tooLong => ?_⟩
  · exact ⟨_, (s.loadImage_eq origin image).trans (if_pos fits), rfl, s.mem.read_fill origin image fits,
      fun _ _ => rfl, rfl, ⟨rfl, rfl, rfl⟩, rfl, rfl, rfl, rfl⟩
  · rw [s.loadImage_eq, if_neg (by omega)]

/-- The bytes of a word, the high byte first (R34). -/
theorem highByte_append_lowByte (w : Word) : highByte w ++ lowByte w = w :=
  BitVec.extractLsb'_append_extractLsb'

theorem wordsOfBytes_flatMap (ws : List Word) :
    wordsOfBytes (ws.flatMap fun w : Word => [(w >>> 8).setWidth 8, w.setWidth 8]) = some ws := by
  induction ws with
  | nil => rfl
  | cons w ws ih =>
    rw [List.flatMap_cons, List.cons_append, List.cons_append, List.nil_append, wordsOfBytes, ih, ← highByte_eq,
      ← lowByte_eq, highByte_append_lowByte, Option.map_some]

theorem wordsOfBytes_of_odd : ∀ {bytes : List Byte}, bytes.length % 2 = 1 → wordsOfBytes bytes = none
  | [], h => absurd h (by decide)
  | [_], _ => rfl
  | _ :: _ :: bytes, h => by
    have rest : bytes.length % 2 = 1 := by simpa [Nat.add_assoc] using h
    rw [wordsOfBytes, wordsOfBytes_of_odd rest, Option.map_none]

/-- Settles O52, word by word, and for a file that is refused by its length. -/
theorem imageFileIsBigEndianWords : Obligations.ImageFileIsBigEndianWords := by
  constructor
  · intro origin image
    rw [parseImage, wordsOfBytes_flatMap]
  · rintro bytes (rfl | odd)
    · rfl
    · rw [parseImage, wordsOfBytes_of_odd odd]

end Sys2Proof.Machine
end

section
/-! PROOFS. The statements of 50_instruction_cycle.md about a step (R150, R155, R157) and those about every instruction and
every step: the frames of memory, registers, stops and streams (10_state.md R11, R21, R22, R23; 60_exceptions.md R171,
R172). -/

namespace Sys2Proof.Machine

/-! Every instruction -/

/-- Settles O39, of every instruction: one that is not well formed executes as its well-formed twin, which stores to the
same cell. -/
theorem onlyStoresWriteMemory : Obligations.OnlyStoresWriteMemory := by
  intro i s t h a
  obtain ⟨j, hw, hexec, hstore, -, -⟩ := exec_as_wf i s
  have hmem := (exec_facts hw (hexec ▸ h)).mem
  rw [State.load, hmem, hstore]
  cases storeTarget i s with
  | none => rfl
  | some cell => exact Memory.read_write s.mem cell.1 a cell.2

/-- Settles O42, by the facts of every next state. -/
theorem registersWrittenAsTabled : Obligations.RegistersWrittenAsTabled :=
  fun _ _ _ hw h => (exec_facts hw h).regs

/-- Settles O45, as O42. -/
theorem stopsAreRaisedAsTabled : Obligations.StopsAreRaisedAsTabled :=
  fun _ _ _ hw h => (exec_facts hw h).stop

/-! The step -/

/-- Settles O34: the end of the step adds the exhaustion to a next state, and passes a fault on. -/
theorem stepRunsTheDecodedInstruction : Obligations.StepRunsTheDecodedInstruction := by
  rintro s f _ hrun rfl hf
  obtain rfl : f = s.fetch := hf
  have hstep := step_running hrun
  refine ⟨fun t hx => ?_, fun e hx => ?_, exec_not_refused (decode_wf _)⟩
  · rw [hstep, hx, endOfStep_next, apply_ite Host.Outcome.next]
  · rw [hstep, hx]
    rfl

/-- A running machine does not answer that it has halted: no instruction faults so. -/
theorem step_ne_halted_of_running {s : State} (hrun : s.run = .running) : step s ≠ .fault .halted := by
  rw [step_running hrun]
  cases hx : exec (decode (s.load s.pc)) s.fetch with
  | next t => rw [endOfStep_next]; split <;> simp
  | fault f =>
    rcases exec_fault_cases (decode_wf _) hx with ⟨mid, rfl, -⟩ | ⟨rfl, -⟩ <;> simp [endOfStep]
  | refused q => simp [endOfStep]

/-- Settles O35, by the run state. -/
theorem noStepExactlyWhenHalted : Obligations.NoStepExactlyWhenHalted := by
  refine fun s => ⟨fun h => ?_, step_halted⟩
  cases hrun : s.run with
  | halted => rfl
  | running => exact absurd h (step_ne_halted_of_running hrun)

/-- Settles O37: the fetch overwrites `ir`, and a step reads it only after that. -/
theorem stepIgnoresTheOldInstructionWord : Obligations.StepIgnoresTheOldInstructionWord := by
  intro s w hrun
  rw [step_running hrun, step_running (s := { s with ir := w }) hrun]
  rfl

/-! Exhaustion (R155) -/

/-- An instruction records only the stops of its table, and EXHAUSTED is in none. -/
theorem ExecFacts.cause_ne_exhausted {i : Instr} {s t : State} (h : ExecFacts i s t) (hs : s.stop = none) :
    ∀ r, t.stop = some r → r.cause ≠ .exhausted := by
  intro r hr
  rcases h.stop with ⟨-, same⟩ | ⟨c, hc, -, stop⟩
  · rw [same, hs] at hr; cases hr
  · rw [stop] at hr
    cases hr
    rintro rfl
    exact exhausted_notMem_stopCauses i hc

/-- Settles O36: the three conditions of the test at the end of a step, and what `raiseStop` writes when they hold. -/
theorem exhaustionAtTheTopOnly : Obligations.ExhaustionAtTheTopOnly := by
  rintro s f t _ hrun rfl hf hx
  obtain rfl : f = s.fetch := hf
  have facts := exec_facts (decode_wf _) hx
  have hstep := step_running hrun
  rw [hx, endOfStep_next] at hstep
  refine ⟨fun top noTransfer running => ?_, fun _ passes => ?_, fun below => ?_, facts.cause_ne_exhausted⟩
  · have hload : loadsPc (decode (s.load s.pc)) s.fetch = false :=
      Bool.eq_false_iff.mpr fun h => noTransfer ((loadsPc_iff _ _).mp h)
    have hpc : t.pc = 0#16 := by rw [facts.pc hload, State.fetch_pc, top]; rfl
    have hir : t.ir = s.load s.pc := facts.ir
    rw [if_pos ⟨top, hload, running⟩] at hstep
    refine ⟨_, hstep, rfl, hpc, ?_, rfl, fun _ _ => rfl, fun _ => rfl, rfl, rfl, rfl, rfl⟩
    rw [State.raiseStop_stop, hpc, hir]
    rfl
  · rw [hstep, if_neg]
    rintro ⟨-, hload, running⟩
    rcases passes with transfer | halted
    · rw [(loadsPc_iff _ _).mpr transfer] at hload; cases hload
    · rw [running] at halted; cases halted
  · rw [hstep, if_neg fun h => below h.1]

/-! Progress and the streams -/

/-- Settles O46, by the answers of the decoded instruction. -/
theorem runningMachineStepsUnlessStuck : Obligations.RunningMachineStepsUnlessStuck := by
  intro s hrun
  have hstep := step_running hrun
  cases hx : exec (decode (s.load s.pc)) s.fetch with
  | next t =>
    obtain ⟨u, hu, -⟩ := endOfStep_keeps_mem_ir s.pc (decode (s.load s.pc)) s.fetch t
    exact .inl ⟨u, by rw [hstep, hx, hu]⟩
  | fault f =>
    rw [hx] at hstep
    rcases exec_fault_cases (decode_wf _) hx with ⟨mid, rfl, noInput, hi⟩ | ⟨rfl, noRefusal, hi⟩
    · exact .inr (.inl ⟨mid, hstep, noInput, hi⟩)
    · exact .inr (.inr ⟨hstep, noRefusal, hi⟩)
  | refused q => exact absurd hx (exec_not_refused (decode_wf _) q)

/-- Settles O47: the streams are as the instruction left them, and exhaustion does not touch them. -/
theorem streamsOnlyAdvance : Obligations.StreamsOnlyAdvance := by
  intro s t h
  obtain ⟨-, u, facts, ⟨-, -, -, rfl⟩ | rfl⟩ := step_facts h
  · exact ⟨facts.sends, facts.input, facts.params⟩
  · exact ⟨facts.sends, facts.input, facts.params⟩

/-- Settles O23, by the three equations of `deliver`. -/
theorem inputIsDeliveredInOrder : Obligations.InputIsDeliveredInOrder :=
  ⟨fun _ _ _ => rfl, rfl, fun _ => rfl⟩

end Sys2Proof.Machine
end

section
/-! PROOFS. The statements of 44_trap.md about the services GETC, OUT, IN and HALT (R123, R124, R126, R128), and what they
do when a request is refused (R130) or no byte will come (R131). -/

namespace Sys2Proof.Machine

/-! The answers of the routines, by what the sink still accepts and whether a byte will come -/

theorem exec_out_of_accepted {s : State} (h : s.sinkAccepts 1) :
    exec .out s = .next (s.enterTrap.sent [.out ((s.reg .r0).setWidth 8)]) := by
  show (s.enterTrap.send _).andThen .next = _
  rw [State.send_goes (s := s.enterTrap) _ h, s.enterTrap_reg_r0, lowByte_eq]
  rfl

theorem exec_out_of_refused {s : State} (h : s.sink = some 0) :
    exec .out s = .next (s.enterTrap.raiseStop .ioFailure) := by
  show (s.enterTrap.send _).andThen .next = _
  rw [State.send_stops (s := s.enterTrap) _ h]
  rfl

theorem exec_getc_of_deliver {s : State} {c : Byte} {rest : InputSource} (h : s.input.deliver = some (c, rest)) :
    exec .getc s = .next ({ s.enterTrap with input := rest }.setReg .r0 (zext c)) := by
  rcases execGetc_cases s with ⟨hn, -⟩ | ⟨c', rest', hd, hx⟩
  · rw [h] at hn; cases hn
  · rw [h] at hd; cases hd; exact hx

theorem exec_getc_of_noInput {s : State} (h : s.input.deliver = none) :
    exec .getc s = .fault (.blockedOnInput s.enterTrap) := by
  rcases execGetc_cases s with ⟨-, hx⟩ | ⟨c, rest, hd, -⟩
  · exact hx
  · rw [h] at hd; cases hd

/-- The events of the prompt and of the notice, as many as a sink that refuses one of them accepts. -/
theorem map_out_take_append (bs : List Byte) {k : Nat} (h : k ≤ bs.length) (es : List OutEvent) :
    (bs.map OutEvent.out ++ es).take k = (bs.take k).map .out := by
  rw [List.take_append_of_le_length (by simpa using h), List.map_take]

theorem exec_halt_of_accepted {s : State} (h : s.sinkAccepts (s.params.haltNotice.length + 1)) :
    exec .halt s = .next ((s.enterTrap.sent (s.params.haltNotice.map .out ++ [.flush])).raiseStop .halt) := by
  show (s.enterTrap.sendAll _).andThen _ = _
  rw [State.sendAll_goes (by simpa [State.sinkAccepts] using h)]
  rfl

theorem exec_halt_of_refused {s : State} {k : Nat} (hs : s.sink = some k) (hk : k ≤ s.params.haltNotice.length) :
    exec .halt s = .next ((s.enterTrap.sent ((s.params.haltNotice.take k).map .out)).raiseStop .ioFailure) := by
  show (s.enterTrap.sendAll _).andThen _ = _
  rw [State.sendAll_stops (s := s.enterTrap) (k := k) hs (by simpa using Nat.lt_succ_of_le hk), s.enterTrap_params,
    map_out_take_append _ hk]
  rfl

theorem exec_in_of_prompt_refused {s : State} {k : Nat} (hs : s.sink = some k) (hk : k < s.params.inPrompt.length) :
    exec .inChar s = .next ((s.enterTrap.sent ((s.params.inPrompt.take k).map .out)).raiseStop .ioFailure) := by
  show (s.enterTrap.sendAll _).andThen _ = _
  rw [State.sendAll_stops (s := s.enterTrap) (k := k) hs (by simpa using hk), s.enterTrap_params, List.map_take]
  rfl

theorem sendAll_prompt_goes {s : State} (h : s.sinkAccepts s.params.inPrompt.length) :
    s.enterTrap.sendAll (s.params.inPrompt.map .out) = .goes (s.enterTrap.sent (s.params.inPrompt.map .out)) :=
  State.sendAll_goes (by simpa [State.sinkAccepts] using h)

theorem exec_in_of_noInput {s : State} (h : s.sinkAccepts s.params.inPrompt.length) (hi : s.input.deliver = none) :
    exec .inChar s = .fault (.blockedOnInput (s.enterTrap.sent (s.params.inPrompt.map .out))) := by
  show (s.enterTrap.sendAll _).andThen _ = _
  rw [s.enterTrap_params, sendAll_prompt_goes h, Flow.andThen, State.takeByte, State.sent_input, s.enterTrap_input, hi]

/-- IN when the prompt is accepted and a byte comes: the echo is still to be sent. -/
theorem exec_in_of_deliver {s : State} {c : Byte} {rest : InputSource} (h : s.sinkAccepts s.params.inPrompt.length)
    (hi : s.input.deliver = some (c, rest)) :
    exec .inChar s =
      (({ s.enterTrap with input := rest }.sent (s.params.inPrompt.map OutEvent.out)).send (OutEvent.out c)).andThen
        fun echoed => .next (echoed.setReg .r0 (zext c)) := by
  show (s.enterTrap.sendAll _).andThen _ = _
  rw [s.enterTrap_params, sendAll_prompt_goes h, Flow.andThen, State.takeByte, State.sent_input, s.enterTrap_input, hi]
  rfl

theorem exec_in_of_accepted {s : State} {c : Byte} {rest : InputSource}
    (h : s.sinkAccepts (s.params.inPrompt.length + 1)) (hi : s.input.deliver = some (c, rest)) :
    exec .inChar s =
      .next (({ s.enterTrap with input := rest }.sent (s.params.inPrompt.map OutEvent.out ++ [OutEvent.out c])).setReg .r0
        (zext c)) := by
  rw [exec_in_of_deliver (State.sinkAccepts_mono h (Nat.le_succ _)) hi, State.send_goes, State.sent_sent]
  · rfl
  · exact State.sinkAccepts_sent (by simpa [State.sinkAccepts] using h)

theorem exec_in_of_echo_refused {s : State} {c : Byte} {rest : InputSource} (h : s.sink = some s.params.inPrompt.length)
    (hi : s.input.deliver = some (c, rest)) :
    exec .inChar s =
      .next (({ s.enterTrap with input := rest }.sent (s.params.inPrompt.map OutEvent.out)).raiseStop .ioFailure) := by
  rw [exec_in_of_deliver (State.sinkAccepts_of_eq h) hi, State.send_stops]
  · rfl
  · simp [h]

/-! What is seen of the answers -/

theorem sends_nil (s : State) : Sends [] s s.enterTrap := by
  simp [Sends]

/-- Settles O24, by the answer of GETC to a byte; the zero extension is the concatenation with a zero byte. -/
theorem getcReadsOneByte : Obligations.GetcReadsOneByte := by
  refine fun u s c rest => ⟨decode_layout_trap u _, fun h => ⟨_, exec_getc_of_deliver h, ?_⟩⟩
  exact ⟨((entersTrap_spec s).withInput rest).setReg_r0 _, zext_eq_append c, rfl, sends_nil s, rfl, rfl, rfl⟩

/-- Settles O25, by the answer of OUT to a sink that accepts its one request. -/
theorem outWritesLowByte : Obligations.OutWritesLowByte := by
  refine fun u s => ⟨decode_layout_trap u _, fun h => ⟨_, exec_out_of_accepted h, ?_⟩⟩
  exact ⟨(entersTrap_spec s).sent _, rfl, rfl, ⟨rfl, rfl⟩, rfl, rfl, rfl⟩

/-- Settles O27, by the answer of IN when the prompt and the echo are accepted. -/
theorem inPromptsReadsAndEchoes : Obligations.InPromptsReadsAndEchoes := by
  refine fun u s c rest => ⟨decode_layout_trap u _, fun hi h => ⟨_, exec_in_of_accepted h hi, ?_⟩⟩
  exact ⟨(((entersTrap_spec s).withInput rest).sent _).setReg_r0 _, zext_eq_append c, rfl, ⟨rfl, rfl⟩, rfl, rfl, rfl⟩

/-- Settles O29, by the answer of HALT when the notice and the flush are accepted. -/
theorem haltStopsTheRun : Obligations.HaltStopsTheRun := by
  refine fun u s => ⟨decode_layout_trap u _, fun h => ⟨_, exec_halt_of_accepted h, ?_⟩⟩
  exact ⟨((entersTrap_spec s).sent _).raiseStop _, rfl, rfl, ⟨rfl, rfl⟩, rfl, rfl⟩

/-- Settles O30, by the answer at the first refused request: the byte of OUT, of the notice, of the prompt, and the echo. -/
theorem refusedOutputStopsOutInHalt : Obligations.RefusedOutputStopsOutInHalt := by
  intro s k hs
  have entered := entersTrap_spec s
  refine ⟨?_, fun hk => ?_, fun hk => ?_, fun c rest hk hi => ?_⟩
  · rintro rfl
    exact ⟨_, exec_out_of_refused hs, entered.raiseStop _, rfl, ⟨rfl, rfl⟩, rfl, rfl⟩
  · exact ⟨_, exec_halt_of_refused hs hk, (entered.sent _).raiseStop _, rfl, ⟨rfl, rfl⟩, rfl, rfl⟩
  · exact ⟨_, exec_in_of_prompt_refused hs hk, (entered.sent _).raiseStop _, rfl, ⟨rfl, rfl⟩, rfl, rfl⟩
  · exact ⟨_, exec_in_of_echo_refused (hk ▸ hs) hi, ((entered.withInput rest).sent _).raiseStop _, rfl, ⟨rfl, rfl⟩,
      rfl, rfl⟩

/-- Settles O33, by the answers of GETC and IN to an input that has ended. -/
theorem inputThatNeverComesBlocks : Obligations.InputThatNeverComesBlocks := by
  refine fun s hi => ⟨?_, fun h => ?_⟩
  · exact ⟨_, exec_getc_of_noInput hi, entersTrap_spec s, rfl, rfl, sends_nil s, rfl, rfl, rfl⟩
  · exact ⟨_, exec_in_of_noInput h hi, (entersTrap_spec s).sent _, rfl, rfl, ⟨rfl, rfl⟩, rfl, rfl, rfl⟩

end Sys2Proof.Machine
end

section
/-! PROOFS. The statements of 44_trap.md about the strings of PUTS and PUTSP: one that ends (R125, R127), one whose output is
refused (R130), and one without an end (R131). -/

namespace Sys2Proof.Machine

/-! The end of a scan: at a zero byte, or at a sink with no acceptance left -/

/-- The flush after a string that ended (R125, R127). -/
theorem finishString_of_end {s : State} (h : s.sinkAccepts 1) :
    finishString (some (.goes s)) = .next (s.sent [.flush]) := by
  rw [finishString, Flow.andThen, State.send_goes _ h]
  rfl

theorem finishString_of_flush_refused {s : State} (h : s.sink = some 0) :
    finishString (some (.goes s)) = .next (s.raiseStop .ioFailure) := by
  rw [finishString, Flow.andThen, State.send_stops _ h]
  rfl

theorem finishString_of_stops (s : State) : finishString (some (.stops s)) = .next s := rfl

theorem putsScan_at_end (fuel : Nat) {a : Word} {s : State} (h : s.load a = 0#16) :
    putsScan (fuel + 1) a s = some (.goes s) := by
  rw [putsScan, if_pos h]

theorem putspScan_at_low_end (fuel : Nat) {a : Word} {s : State} (h : lowByte (s.load a) = 0#8) :
    putspScan (fuel + 1) a s = some (.goes s) := by
  rw [putspScan, if_pos h]

theorem putspScan_at_high_end (fuel : Nat) {a : Word} {s : State} (hl : lowByte (s.load a) ≠ 0#8)
    (hh : highByte (s.load a) = 0#8) (hs : s.sinkAccepts 1) :
    putspScan (fuel + 1) a s = some (.goes (s.sent [.out (lowByte (s.load a))])) := by
  simp only [putspScan, if_neg hl, State.send_goes _ hs, if_pos hh]

/-- The next request of PUTS is refused, be it a byte or the flush. -/
theorem finishString_putsScan_refused (fuel : Nat) (a : Word) {s : State} (hs : s.sink = some 0) :
    finishString (putsScan (fuel + 1) a s) = .next (s.raiseStop .ioFailure) := by
  by_cases h : s.load a = 0#16
  · rw [putsScan_at_end fuel h, finishString_of_flush_refused hs]
  · simp only [putsScan, if_neg h, State.send_stops _ hs, finishString_of_stops]

/-- The next request of PUTSP is refused, be it a low byte or the flush. -/
theorem finishString_putspScan_refused (fuel : Nat) (a : Word) {s : State} (hs : s.sink = some 0) :
    finishString (putspScan (fuel + 1) a s) = .next (s.raiseStop .ioFailure) := by
  by_cases h : lowByte (s.load a) = 0#8
  · rw [putspScan_at_low_end fuel h, finishString_of_flush_refused hs]
  · simp only [putspScan, if_neg h, State.send_stops _ hs, finishString_of_stops]

/-- The request of PUTSP after a low byte is refused, be it a high byte or the flush. -/
theorem finishString_putspScan_refused_after_low (fuel : Nat) {a : Word} {s : State} (hl : lowByte (s.load a) ≠ 0#8)
    (hs : s.sink = some 1) :
    finishString (putspScan (fuel + 1) a s) =
      .next ((s.sent [.out (lowByte (s.load a))]).raiseStop .ioFailure) := by
  have accepted : s.sinkAccepts 1 := State.sinkAccepts_of_eq hs
  have refused : (s.sent [.out (lowByte (s.load a))]).sink = some 0 := by simp [hs]
  by_cases h : highByte (s.load a) = 0#8
  · rw [putspScan_at_high_end fuel hl h accepted, finishString_of_flush_refused refused]
  · simp only [putspScan, if_neg hl, State.send_goes _ accepted, if_neg h, State.send_stops _ refused,
      finishString_of_stops]

/-! The bytes of the string, as the statements write them -/

/-- The requests of PUTS for the first `n` cells. -/
def State.cellEvents (s : State) (n : Nat) : List OutEvent :=
  (List.range n).map fun i => .out ((s.stringCell i).setWidth 8)

/-- The requests of PUTSP for the first `n` bytes. -/
def State.byteEvents (s : State) (n : Nat) : List OutEvent :=
  (List.range n).map fun i => .out (s.packedByte i)

@[simp] theorem State.length_cellEvents (s : State) (n : Nat) : (s.cellEvents n).length = n := by
  simp [State.cellEvents]

@[simp] theorem State.length_byteEvents (s : State) (n : Nat) : (s.byteEvents n).length = n := by
  simp [State.byteEvents]

theorem State.byteEvents_succ (s : State) (n : Nat) :
    s.byteEvents (n + 1) = s.byteEvents n ++ [.out (s.packedByte n)] := by
  simp [State.byteEvents, List.range_succ]

theorem State.packedByte_even (s : State) (m : Nat) : s.packedByte (2 * m) = lowByte (s.stringCell m) := by
  rw [← s.byteFrom_eq_packedByte, s.byteFrom_even]
  rfl

theorem State.packedByte_odd (s : State) (m : Nat) : s.packedByte (2 * m + 1) = highByte (s.stringCell m) := by
  rw [← s.byteFrom_eq_packedByte, s.byteFrom_odd]
  rfl

/-- PUTS after `n` non-zero cells that the sink accepts. -/
theorem exec_puts_after {s : State} {n fuel : Nat} (hf : s.scanFuel = n + fuel)
    (h : ∀ i < n, s.stringCell i ≠ 0#16) (ha : s.sinkAccepts n) :
    exec .puts s =
      finishString (putsScan fuel (s.reg .r0 + BitVec.ofNat 16 n) (s.enterTrap.sent (s.cellEvents n))) := by
  rw [exec_puts, show s.enterTrap.scanFuel = n + fuel from hf, putsScan_run n fuel _ s.enterTrap h ha]
  simp only [State.cellEvents, ← lowByte_eq]
  rfl

/-- PUTSP after `m` cells without a zero byte that the sink accepts. -/
theorem exec_putsp_after {s : State} {m fuel : Nat} (hf : s.scanFuel = m + fuel)
    (h : ∀ i < 2 * m, s.packedByte i ≠ 0#8) (ha : s.sinkAccepts (2 * m)) :
    exec .putsp s =
      finishString (putspScan fuel (s.reg .r0 + BitVec.ofNat 16 m) (s.enterTrap.sent (s.byteEvents (2 * m)))) := by
  have bytes : ∀ i, s.enterTrap.byteFrom (s.reg .r0) i = s.packedByte i := s.byteFrom_eq_packedByte
  rw [exec_putsp, show s.enterTrap.scanFuel = m + fuel from hf,
    putspScan_run m fuel _ s.enterTrap (fun i hi => bytes i ▸ h i hi) ha]
  simp only [bytes, State.byteEvents]

theorem State.enterTrap_sent_accepts {s : State} {es : List OutEvent} {n : Nat} (h : s.sinkAccepts (es.length + n)) :
    (s.enterTrap.sent es).sinkAccepts n :=
  State.sinkAccepts_sent (s := s.enterTrap) h

/-! A string that ends -/

theorem exec_puts_of_end {s : State} {n : Nat} (hn : n < 65536) (h : ∀ i < n, s.stringCell i ≠ 0#16)
    (hend : s.stringCell n = 0#16) (ha : s.sinkAccepts (n + 1)) :
    exec .puts s = .next (s.enterTrap.sent (s.cellEvents n ++ [.flush])) := by
  obtain ⟨extra, hf⟩ := s.scanFuel_of_lt hn
  rw [exec_puts_after hf h (State.sinkAccepts_mono ha (Nat.le_succ n)),
    putsScan_at_end extra (s := s.enterTrap.sent _) hend, finishString_of_end, State.sent_sent]
  exact State.enterTrap_sent_accepts (by simpa using ha)

/-- The string ends in the low byte of a cell when `n` is even, in the high byte when it is odd. -/
theorem exec_putsp_of_end {s : State} {n : Nat} (hn : n < 131072) (h : ∀ i < n, s.packedByte i ≠ 0#8)
    (hend : s.packedByte n = 0#8) (ha : s.sinkAccepts (n + 1)) :
    exec .putsp s = .next (s.enterTrap.sent (s.byteEvents n ++ [.flush])) := by
  obtain ⟨m, rfl | rfl⟩ := n.even_or_odd'
  · obtain ⟨extra, hf⟩ := s.scanFuel_of_lt (n := m) (by omega)
    rw [s.packedByte_even] at hend
    rw [exec_putsp_after hf h (State.sinkAccepts_mono ha (by omega)),
      putspScan_at_low_end extra (s := s.enterTrap.sent _) hend, finishString_of_end, State.sent_sent]
    exact State.enterTrap_sent_accepts (by simpa using ha)
  · obtain ⟨extra, hf⟩ := s.scanFuel_of_lt (n := m) (by omega)
    have low : lowByte (s.stringCell m) ≠ 0#8 := s.packedByte_even m ▸ h (2 * m) (by omega)
    rw [s.packedByte_odd] at hend
    rw [exec_putsp_after hf (fun i hi => h i (by omega)) (State.sinkAccepts_mono ha (by omega)),
      putspScan_at_high_end extra (s := s.enterTrap.sent _) low hend, State.sent_sent, State.byteEvents_succ,
      s.packedByte_even, finishString_of_end, State.sent_sent]
    · rfl
    · exact State.enterTrap_sent_accepts (by simpa using ha)
    · exact State.enterTrap_sent_accepts (State.sinkAccepts_mono ha (by simp))

/-- Settles O26, by the answer of PUTS to a string that ends. -/
theorem putsWritesTheString : Obligations.PutsWritesTheString := by
  refine fun u s n => ⟨decode_layout_trap u _, fun hn h hend ha => ⟨_, exec_puts_of_end hn h hend ha, ?_⟩⟩
  exact ⟨(entersTrap_spec s).sent _, rfl, rfl, ⟨rfl, rfl⟩, rfl, rfl, rfl⟩

/-- Settles O28, by the answer of PUTSP to a string that ends. -/
theorem putspWritesThePackedString : Obligations.PutspWritesThePackedString := by
  refine fun u s n => ⟨decode_layout_trap u _, fun hn h hend ha => ⟨_, exec_putsp_of_end hn h hend ha, ?_⟩⟩
  exact ⟨(entersTrap_spec s).sent _, rfl, rfl, ⟨rfl, rfl⟩, rfl, rfl, rfl⟩

/-! A string whose output is refused -/

theorem exec_puts_of_refused {s : State} {k : Nat} (hs : s.sink = some k) (h : ∀ i < k, s.stringCell i ≠ 0#16) :
    exec .puts s = .next ((s.enterTrap.sent (s.cellEvents k)).raiseStop .ioFailure) := by
  obtain ⟨extra, hf⟩ := State.scanFuel_of_sink hs
  rw [exec_puts_after hf h (State.sinkAccepts_of_eq hs), finishString_putsScan_refused]
  simp [hs]

theorem exec_putsp_of_refused {s : State} {k : Nat} (hs : s.sink = some k) (h : ∀ i < k, s.packedByte i ≠ 0#8) :
    exec .putsp s = .next ((s.enterTrap.sent (s.byteEvents k)).raiseStop .ioFailure) := by
  obtain ⟨extra, hf⟩ := State.scanFuel_of_sink hs
  have ha : s.sinkAccepts k := State.sinkAccepts_of_eq hs
  obtain ⟨m, rfl | rfl⟩ := k.even_or_odd'
  · have hf : s.scanFuel = m + (m + extra + 1) := by omega
    rw [exec_putsp_after hf h ha, finishString_putspScan_refused]
    simp [hs]
  · have hf : s.scanFuel = m + (m + 1 + extra + 1) := by omega
    have low : lowByte (s.stringCell m) ≠ 0#8 := s.packedByte_even m ▸ h (2 * m) (by omega)
    rw [exec_putsp_after hf (fun i hi => h i (by omega)) (State.sinkAccepts_mono ha (by omega)),
      finishString_putspScan_refused_after_low _ (s := s.enterTrap.sent _) low, State.sent_sent,
      State.byteEvents_succ, s.packedByte_even]
    · rfl
    · simp [hs]

/-- Settles O31, by the answers of PUTS and PUTSP at the first refused request. -/
theorem refusedOutputStopsPutsPutsp : Obligations.RefusedOutputStopsPutsPutsp := by
  intro s k hs
  have entered := entersTrap_spec s
  refine ⟨fun h => ⟨_, exec_puts_of_refused hs h, ?_⟩, fun h => ⟨_, exec_putsp_of_refused hs h, ?_⟩⟩
  · exact ⟨(entered.sent _).raiseStop _, rfl, ⟨rfl, rfl⟩, rfl, rfl⟩
  · exact ⟨(entered.sent _).raiseStop _, rfl, ⟨rfl, rfl⟩, rfl, rfl⟩

/-! A string without an end (R131): the addresses wrap, so a scan passes every cell -/

theorem State.exists_stringCell_eq (s : State) (a : Word) : ∃ i < 65536, s.stringCell i = s.load a := by
  refine ⟨(a - s.reg .r0).toNat, (a - s.reg .r0).isLt, ?_⟩
  rw [State.stringCell, BitVec.ofNat_toNat, BitVec.setWidth_eq, BitVec.add_comm, BitVec.sub_add_cancel]

theorem exists_first_eq {α : Type} {f : Nat → α} {z : α} {n : Nat} (h : f n = z) :
    ∃ m ≤ n, (∀ i < m, f i ≠ z) ∧ f m = z := by
  classical
  have some_end : ∃ m, f m = z := ⟨n, h⟩
  exact ⟨Nat.find some_end, Nat.find_min' some_end h, fun i hi => Nat.find_min some_end hi, Nat.find_spec some_end⟩

theorem State.sinkAccepts_of_none {s : State} (h : s.sink = none) (n : Nat) : s.sinkAccepts n := by
  intro k hk
  rw [h] at hk
  cases hk

theorem RoutineEnds.ne_fault {s : State} {r : Result} (h : RoutineEnds s r) (f : Fault) : r ≠ .fault f := by
  rcases h with ⟨es, rfl, -⟩ | ⟨es, rfl, -⟩ <;> simp

theorem exec_puts_endless_iff (s : State) :
    exec .puts s = .fault .endlessString ↔ s.sink = none ∧ ∀ i < 65536, s.stringCell i ≠ 0#16 := by
  constructor
  · intro hx
    have noRefusal : s.sink = none := by
      rcases execPuts_cases s with ⟨-, hs⟩ | ends
      · exact hs
      · exact absurd hx (ends.ne_fault _)
    refine ⟨noRefusal, fun n hn hend => ?_⟩
    obtain ⟨m, hm, before, at_end⟩ := exists_first_eq hend
    rw [exec_puts_of_end (by omega) before at_end (State.sinkAccepts_of_none noRefusal _)] at hx
    cases hx
  · rintro ⟨noRefusal, h⟩
    rw [exec_puts_after (fuel := 0) (State.scanFuel_of_none noRefusal) h (State.sinkAccepts_of_none noRefusal _)]
    rfl

theorem exec_putsp_endless_iff (s : State) :
    exec .putsp s = .fault .endlessString ↔ s.sink = none ∧ ∀ i < 131072, s.packedByte i ≠ 0#8 := by
  constructor
  · intro hx
    have noRefusal : s.sink = none := by
      rcases execPutsp_cases s with ⟨-, hs⟩ | ends
      · exact hs
      · exact absurd hx (ends.ne_fault _)
    refine ⟨noRefusal, fun n hn hend => ?_⟩
    obtain ⟨m, hm, before, at_end⟩ := exists_first_eq hend
    rw [exec_putsp_of_end (by omega) before at_end (State.sinkAccepts_of_none noRefusal _)] at hx
    cases hx
  · rintro ⟨noRefusal, h⟩
    rw [exec_putsp_after (fuel := 0) (State.scanFuel_of_none noRefusal) h (State.sinkAccepts_of_none noRefusal _)]
    rfl

/-- A property of every cell is one of the cells of a string, wherever it begins. -/
theorem State.forall_stringCell_iff (s : State) (p : Word → Prop) :
    (∀ i < 65536, p (s.stringCell i)) ↔ ∀ a, p (s.load a) := by
  refine ⟨fun h a => ?_, fun h i _ => h _⟩
  obtain ⟨i, hi, heq⟩ := s.exists_stringCell_eq a
  exact heq ▸ h i hi

/-- The bytes of a packed string are those of its cells, two a cell. -/
theorem State.forall_packedByte_iff (s : State) :
    (∀ i < 131072, s.packedByte i ≠ 0#8) ↔
      ∀ i < 65536, lowByte (s.stringCell i) ≠ 0#8 ∧ highByte (s.stringCell i) ≠ 0#8 := by
  constructor
  · intro h i hi
    exact ⟨s.packedByte_even i ▸ h (2 * i) (by omega), s.packedByte_odd i ▸ h (2 * i + 1) (by omega)⟩
  · intro h i hi
    obtain ⟨m, rfl | rfl⟩ := i.even_or_odd'
    · exact s.packedByte_even m ▸ (h m (by omega)).1
    · exact s.packedByte_odd m ▸ (h m (by omega)).2

/-- Settles O32: a scan that the sink never refuses ends exactly when it meets a zero within one pass of memory. -/
theorem endlessStringExactlyWithoutTerminator : Obligations.EndlessStringExactlyWithoutTerminator := by
  intro s
  rw [exec_puts_endless_iff, exec_putsp_endless_iff, s.forall_packedByte_iff, s.forall_stringCell_iff (· ≠ 0#16),
    s.forall_stringCell_iff fun w => lowByte w ≠ 0#8 ∧ highByte w ≠ 0#8]
  simp only [lowByte_eq, highByte_eq, and_self]

end Sys2Proof.Machine
end
